-- ==== Sys2Proof/Word.lean ====
section
/-! DEFINITION. The word types of CHIP-8 CORE (spec/00_scope.md R5, R7): bytes of 8 bits, words of 16 bits,
and the 4-bit register index. All values are unsigned (R7). -/

namespace Sys2Proof

/-- An 8-bit value: a general register, a timer, a byte of memory (R10, R16, R24). -/
abbrev Byte := BitVec 8

/-- A 16-bit value: PC, I, a stack entry, an instruction word (R12, R13, R15, R60). -/
abbrev Word := BitVec 16

/-- A 12-bit address field `nnn` (R61). -/
abbrev Addr12 := BitVec 12

/-- The index of a general register, 0 to 15 (R10). -/
abbrev Reg := Fin 16

/-- `zext_16` of a byte (R7). -/
abbrev zextByte (b : Byte) : Word := b.setWidth 16

/-- `zext_16` of an address field (R7, R74). -/
abbrev zextAddr (a : Addr12) : Word := a.setWidth 16

end Sys2Proof
end

