-- ==== Sys2Proof/Config.lean ====
section
/-! DEFINITION. The fixed parameters of spec/00_scope.md R5, the open parameters of R6 as a configuration that the
step reads (R25), and the one free value, the random byte (R161, RND_POLICY). The defaults of the two parameters stand
where a repair can reach them: `secKey0E` in Decode.lean, `defaultParams` in Machine/Params.lean. -/

namespace Sys2Proof.Config

/-- MEM_SIZE (R5): 4096 bytes, addresses 0x000 to 0xFFF. -/
abbrev memSize : Nat := 4096

/-- FONT_BASE (R5). -/
abbrev fontBase : Nat := 0x050

/-- FONT_GLYPH_BYTES (R5). -/
abbrev fontGlyphBytes : Nat := 5

/-- PROG_BASE (R5). -/
abbrev progBase : Nat := 0x200

/-- PROG_MAX (R5): 4096 - 512. -/
abbrev progMax : Nat := 3584

/-- RND_REFERENCE (R5): the constant of the reference's random source. Named only; the machine never uses it,
since the source warns it "should not be assumed as intentional design" (R161). -/
abbrev rndReference : Byte := 0x01

/-- SECKEY_0E (R6): what the secondary dispatch of groups 0x0 and 0xE looks at. -/
inductive SecKey where
  | lowByte
  | lowNibble
  deriving DecidableEq, Repr

/-- VF_ORDER (R6): the order of the flag write and the result write of the six flag-writing instructions,
with the columns of 93_implementation_defined.md U3. -/
inductive VfOrder where
  /-- operands latched, flag written, result written last (R33, the default) -/
  | resultLast
  /-- the flag is written after the result -/
  | flagLast
  /-- the flag is written first, then the registers are read again for the result, the sum of `ADD Vx,Vy` included -/
  | sequential
  /-- as `sequential`, but for the sum of `ADD Vx,Vy`, which is not re-read (U3: "if re-read; else as default") -/
  | sequentialSumKept
  deriving DecidableEq, Repr

/-- The open parameters of R6 beside RND_POLICY: fixed for one machine, read by its step (R25), written by nothing. -/
structure Params where
  secKey : SecKey
  vfOrder : VfOrder
  deriving DecidableEq, Repr

/-- FREE VALUE (R161, U4; log 5): the byte that the random source presents at the `k`-th draw for which the host
has put none on the input. It has no body: nothing can be proved of it. -/
opaque rndByte : Nat → Byte

end Sys2Proof.Config
end

