-- ==== Sys2Proof/Syntax.lean ====
section
/-! DEFINITION. The instructions: one constructor per row of spec/opcode_table.json, in the opcode order of
spec/30_encoding.md R72. `x` and `y` are register indices, `kk` the immediate byte, `nnn` the address, `n` the
sprite height (R61, R74). -/

namespace Sys2Proof

/-- The 34 instructions of R72. -/
inductive Instr where
  /-- `CLS` (R170) -/
  | cls
  /-- `RET` (R102) -/
  | ret
  /-- `JP addr` (R100) -/
  | jp (nnn : Addr12)
  /-- `CALL addr` (R101) -/
  | call (nnn : Addr12)
  /-- `SE Vx,byte` (R103) -/
  | seByte (x : Reg) (kk : Byte)
  /-- `SNE Vx,byte` (R104) -/
  | sneByte (x : Reg) (kk : Byte)
  /-- `SE Vx,Vy` (R105) -/
  | seReg (x y : Reg)
  /-- `LD Vx,byte` (R110) -/
  | ldByte (x : Reg) (kk : Byte)
  /-- `ADD Vx,byte` (R120) -/
  | addByte (x : Reg) (kk : Byte)
  /-- `LD Vx,Vy` (R111) -/
  | ldReg (x y : Reg)
  /-- `OR Vx,Vy` (R124) -/
  | orReg (x y : Reg)
  /-- `AND Vx,Vy` (R125) -/
  | andReg (x y : Reg)
  /-- `XOR Vx,Vy` (R126) -/
  | xorReg (x y : Reg)
  /-- `ADD Vx,Vy` (R121) -/
  | addReg (x y : Reg)
  /-- `SUB Vx,Vy` (R122) -/
  | subReg (x y : Reg)
  /-- `SHR Vx` (R140) -/
  | shr (x : Reg)
  /-- `SUBN Vx,Vy` (R123) -/
  | subnReg (x y : Reg)
  /-- `SHL Vx` (R141) -/
  | shl (x : Reg)
  /-- `SNE Vx,Vy` (R106) -/
  | sneReg (x y : Reg)
  /-- `LD I,addr` (R150) -/
  | ldI (nnn : Addr12)
  /-- `JP V0,addr` (R107) -/
  | jpV0 (nnn : Addr12)
  /-- `RND Vx,byte` (R160) -/
  | rnd (x : Reg) (kk : Byte)
  /-- `DRW Vx,Vy,n` (R171); `n` is a count of rows, at most 15 in a well-formed instruction -/
  | drw (x y : Reg) (n : Nat)
  /-- `SKP Vx` (R180) -/
  | skp (x : Reg)
  /-- `SKNP Vx` (R181) -/
  | sknp (x : Reg)
  /-- `LD Vx,DT` (R190) -/
  | ldVxDt (x : Reg)
  /-- `LD Vx,K` (R182) -/
  | ldVxK (x : Reg)
  /-- `LD DT,Vx` (R191) -/
  | ldDtVx (x : Reg)
  /-- `LD ST,Vx` (R192) -/
  | ldStVx (x : Reg)
  /-- `ADD I,Vx` (R151) -/
  | addI (x : Reg)
  /-- `LD F,Vx` (R200) -/
  | ldF (x : Reg)
  /-- `LD B,Vx` (R201) -/
  | ldB (x : Reg)
  /-- `LD [I],Vx` (R203): stores V[0] to V[x] -/
  | storeRegs (x : Reg)
  /-- `LD Vx,[I]` (R204): loads V[0] to V[x] -/
  | loadRegs (x : Reg)
  deriving DecidableEq, Repr

end Sys2Proof
end

