-- ==== Sys2Proof/WellFormed.lean ====
section
/-! DEFINITION. Which terms of `Instr` are instructions. Register indices, bytes and addresses have their widths
in their types; the one check left is the sprite height of `DRW`, a 4-bit count (spec/30_encoding.md R61, R74). -/

namespace Sys2Proof

/-- The sprite height fits the nibble `n` (R61: 4 bits; R74: "an unsigned 4-bit count"). -/
def heightFits (n : Nat) : Bool := decide (n ≤ 15)

/-- Well-formedness: every operand has a value that the encoding admits. -/
def Instr.wf : Instr → Bool
  | .drw _ _ n => heightFits n
  | .cls | .ret | .jp _ | .call _ | .seByte _ _ | .sneByte _ _ | .seReg _ _ | .ldByte _ _ | .addByte _ _
  | .ldReg _ _ | .orReg _ _ | .andReg _ _ | .xorReg _ _ | .addReg _ _ | .subReg _ _ | .shr _ | .subnReg _ _
  | .shl _ | .sneReg _ _ | .ldI _ | .jpV0 _ | .rnd _ _ | .skp _ | .sknp _ | .ldVxDt _ | .ldVxK _ | .ldDtVx _
  | .ldStVx _ | .addI _ | .ldF _ | .ldB _ | .storeRegs _ | .loadRegs _ => true

end Sys2Proof
end

