-- ==== Sys2Proof/Decode.lean ====
section
/-! DEFINITION. The decoder of spec/30_encoding.md R63 to R69 (two levels: the top nibble, then the secondary code
of groups 0x0, 0x8, 0xE, 0xF), total on any word and on any bytes and rejecting by name; after it the encoder, the
opcode table as mask and pattern, and the assembler spelling of R72. -/

namespace Sys2Proof

/-! ### Fields (R61) -/

/-- `g = op[15:12]` -/
def fieldG (op : Word) : BitVec 4 := op.extractLsb' 12 4

/-- `x = op[11:8]` -/
def fieldX (op : Word) : Reg := (op.extractLsb' 8 4).toFin

/-- `y = op[7:4]` -/
def fieldY (op : Word) : Reg := (op.extractLsb' 4 4).toFin

/-- `n = op[3:0]` -/
def fieldN (op : Word) : BitVec 4 := op.extractLsb' 0 4

/-- `kk = op[7:0]` -/
def fieldKK (op : Word) : Byte := op.extractLsb' 0 8

/-- `nnn = op[11:0]` -/
def fieldNNN (op : Word) : Addr12 := op.extractLsb' 0 12

/-- The instruction word made of the byte at the lower address and the byte after it (R42: `MEM[PC] ++ MEM[PC+1]`). -/
def wordOfBytes (hi lo : Byte) : Word := hi ++ lo

/-- Why the decoder gives no instruction. All but `truncated` are the `DecodeFailure` of R70. -/
inductive Reject where
  /-- fewer than two bytes were given: not an instruction word (R60) -/
  | truncated
  /-- group 0x0 with a secondary code that R65 does not list -/
  | group0 (op : Word)
  /-- group 0x8 with a secondary code that R66 does not list -/
  | group8 (op : Word)
  /-- group 0xE with a secondary code that R67 does not list -/
  | groupE (op : Word)
  /-- group 0xF with a secondary code that R68 does not list -/
  | groupF (op : Word)
  deriving DecidableEq, Repr

/-- Group 0x0 (R65), under either SECKEY_0E. -/
def decodeGroup0 (key : Config.SecKey) (op : Word) : Except Reject Instr :=
  match key with
  | .lowByte =>
    if fieldKK op = 0xE0#8 then .ok .cls
    else if fieldKK op = 0xEE#8 then .ok .ret
    else .error (.group0 op)
  | .lowNibble =>
    if fieldN op = 0x0#4 then .ok .cls
    else if fieldN op = 0xE#4 then .ok .ret
    else .error (.group0 op)

/-- Group 0x8 (R66): secondary code `n`. -/
def decodeGroup8 (op : Word) : Except Reject Instr :=
  match fieldN op with
  | 0x0#4 => .ok (.ldReg (fieldX op) (fieldY op))
  | 0x1#4 => .ok (.orReg (fieldX op) (fieldY op))
  | 0x2#4 => .ok (.andReg (fieldX op) (fieldY op))
  | 0x3#4 => .ok (.xorReg (fieldX op) (fieldY op))
  | 0x4#4 => .ok (.addReg (fieldX op) (fieldY op))
  | 0x5#4 => .ok (.subReg (fieldX op) (fieldY op))
  | 0x6#4 => .ok (.shr (fieldX op))
  | 0x7#4 => .ok (.subnReg (fieldX op) (fieldY op))
  | 0xE#4 => .ok (.shl (fieldX op))
  | _ => .error (.group8 op)

/-- Group 0xE (R67), under either SECKEY_0E. -/
def decodeGroupE (key : Config.SecKey) (op : Word) : Except Reject Instr :=
  match key with
  | .lowByte =>
    if fieldKK op = 0x9E#8 then .ok (.skp (fieldX op))
    else if fieldKK op = 0xA1#8 then .ok (.sknp (fieldX op))
    else .error (.groupE op)
  | .lowNibble =>
    if fieldN op = 0xE#4 then .ok (.skp (fieldX op))
    else if fieldN op = 0x1#4 then .ok (.sknp (fieldX op))
    else .error (.groupE op)

/-- Group 0xF (R68): secondary code `kk`. -/
def decodeGroupF (op : Word) : Except Reject Instr :=
  match fieldKK op with
  | 0x07#8 => .ok (.ldVxDt (fieldX op))
  | 0x0A#8 => .ok (.ldVxK (fieldX op))
  | 0x15#8 => .ok (.ldDtVx (fieldX op))
  | 0x18#8 => .ok (.ldStVx (fieldX op))
  | 0x1E#8 => .ok (.addI (fieldX op))
  | 0x29#8 => .ok (.ldF (fieldX op))
  | 0x33#8 => .ok (.ldB (fieldX op))
  | 0x55#8 => .ok (.storeRegs (fieldX op))
  | 0x65#8 => .ok (.loadRegs (fieldX op))
  | _ => .error (.groupF op)

/-- The decoder under a given SECKEY_0E (R63, R64): the top nibble selects one of 16 groups, all
assigned. The last arm is group 0xF, the one value of a nibble that the arms before it leave. -/
def decodeWith (key : Config.SecKey) (op : Word) : Except Reject Instr :=
  match fieldG op with
  | 0x0#4 => decodeGroup0 key op
  | 0x1#4 => .ok (.jp (fieldNNN op))
  | 0x2#4 => .ok (.call (fieldNNN op))
  | 0x3#4 => .ok (.seByte (fieldX op) (fieldKK op))
  | 0x4#4 => .ok (.sneByte (fieldX op) (fieldKK op))
  | 0x5#4 => .ok (.seReg (fieldX op) (fieldY op))
  | 0x6#4 => .ok (.ldByte (fieldX op) (fieldKK op))
  | 0x7#4 => .ok (.addByte (fieldX op) (fieldKK op))
  | 0x8#4 => decodeGroup8 op
  | 0x9#4 => .ok (.sneReg (fieldX op) (fieldY op))
  | 0xA#4 => .ok (.ldI (fieldNNN op))
  | 0xB#4 => .ok (.jpV0 (fieldNNN op))
  | 0xC#4 => .ok (.rnd (fieldX op) (fieldKK op))
  | 0xD#4 => .ok (.drw (fieldX op) (fieldY op) (fieldN op).toNat)
  | 0xE#4 => decodeGroupE key op
  | _ => decodeGroupF op

/-- The default of SECKEY_0E (R6, 92_eei_decisions.md D3; log 2). -/
def secKey0E : Config.SecKey := .lowByte

/-- The decoder under the default SECKEY_0E, the one of spec/opcode_table.json (R63). -/
def decodeWord (op : Word) : Except Reject Instr := decodeWith secKey0E op

/-- The decoder on bytes, lowest address first (R42, R60); bytes past the first two are not looked at. -/
def decodeBytes : List Byte → Except Reject Instr
  | hi :: lo :: _ => decodeWord (wordOfBytes hi lo)
  | [] | [_] => .error .truncated

/-! ### The encoder, from the tables of R62 and R64 to R68; unexamined bits take their canonical value 0 (R69) -/

/-- The four bits of a register index. -/
def regBits (x : Reg) : BitVec 4 := BitVec.ofFin x

/-- Format A: `g nnn`. -/
def formatA (g : BitVec 4) (nnn : Addr12) : Word := g ++ nnn

/-- Formats XK, XS and Z: `g x kk`. -/
def formatXK (g : BitVec 4) (x : Reg) (kk : Byte) : Word := g ++ regBits x ++ kk

/-- Formats XY and XYN: `g x y n`. -/
def formatXYN (g : BitVec 4) (x y : Reg) (n : BitVec 4) : Word := g ++ regBits x ++ regBits y ++ n

/-- The canonical word of an instruction. -/
def encode : Instr → Word
  | .cls => formatXK 0x0#4 0 0xE0#8
  | .ret => formatXK 0x0#4 0 0xEE#8
  | .jp nnn => formatA 0x1#4 nnn
  | .call nnn => formatA 0x2#4 nnn
  | .seByte x kk => formatXK 0x3#4 x kk
  | .sneByte x kk => formatXK 0x4#4 x kk
  | .seReg x y => formatXYN 0x5#4 x y 0x0#4
  | .ldByte x kk => formatXK 0x6#4 x kk
  | .addByte x kk => formatXK 0x7#4 x kk
  | .ldReg x y => formatXYN 0x8#4 x y 0x0#4
  | .orReg x y => formatXYN 0x8#4 x y 0x1#4
  | .andReg x y => formatXYN 0x8#4 x y 0x2#4
  | .xorReg x y => formatXYN 0x8#4 x y 0x3#4
  | .addReg x y => formatXYN 0x8#4 x y 0x4#4
  | .subReg x y => formatXYN 0x8#4 x y 0x5#4
  | .shr x => formatXYN 0x8#4 x 0 0x6#4
  | .subnReg x y => formatXYN 0x8#4 x y 0x7#4
  | .shl x => formatXYN 0x8#4 x 0 0xE#4
  | .sneReg x y => formatXYN 0x9#4 x y 0x0#4
  | .ldI nnn => formatA 0xA#4 nnn
  | .jpV0 nnn => formatA 0xB#4 nnn
  | .rnd x kk => formatXK 0xC#4 x kk
  | .drw x y n => formatXYN 0xD#4 x y (BitVec.ofNat 4 n)
  | .skp x => formatXK 0xE#4 x 0x9E#8
  | .sknp x => formatXK 0xE#4 x 0xA1#8
  | .ldVxDt x => formatXK 0xF#4 x 0x07#8
  | .ldVxK x => formatXK 0xF#4 x 0x0A#8
  | .ldDtVx x => formatXK 0xF#4 x 0x15#8
  | .ldStVx x => formatXK 0xF#4 x 0x18#8
  | .addI x => formatXK 0xF#4 x 0x1E#8
  | .ldF x => formatXK 0xF#4 x 0x29#8
  | .ldB x => formatXK 0xF#4 x 0x33#8
  | .storeRegs x => formatXK 0xF#4 x 0x55#8
  | .loadRegs x => formatXK 0xF#4 x 0x65#8

/-- The bytes of an instruction as memory holds them: big-endian, the high byte at the lower address (R42). -/
def encodeBytes (i : Instr) : List Byte := [(encode i).extractLsb' 8 8, (encode i).extractLsb' 0 8]

/-! ### The opcode table as mask and pattern (spec/opcode_table.json) -/

/-- One row: a word `w` selects it when `w AND mask = pattern` (spec/INDEX.md). -/
structure Row where
  mnemonic : String
  mask : Word
  pattern : Word
  deriving DecidableEq, Repr

/-- The row selects the word. -/
def Row.selects (r : Row) (w : Word) : Bool := w &&& r.mask == r.pattern

/-- The table row of an instruction, for the default SECKEY_0E. -/
def Instr.row : Instr → Row
  | .cls => ⟨"CLS", 0xF0FF, 0x00E0⟩
  | .ret => ⟨"RET", 0xF0FF, 0x00EE⟩
  | .jp _ => ⟨"JP_addr", 0xF000, 0x1000⟩
  | .call _ => ⟨"CALL_addr", 0xF000, 0x2000⟩
  | .seByte _ _ => ⟨"SE_Vx_byte", 0xF000, 0x3000⟩
  | .sneByte _ _ => ⟨"SNE_Vx_byte", 0xF000, 0x4000⟩
  | .seReg _ _ => ⟨"SE_Vx_Vy", 0xF000, 0x5000⟩
  | .ldByte _ _ => ⟨"LD_Vx_byte", 0xF000, 0x6000⟩
  | .addByte _ _ => ⟨"ADD_Vx_byte", 0xF000, 0x7000⟩
  | .ldReg _ _ => ⟨"LD_Vx_Vy", 0xF00F, 0x8000⟩
  | .orReg _ _ => ⟨"OR_Vx_Vy", 0xF00F, 0x8001⟩
  | .andReg _ _ => ⟨"AND_Vx_Vy", 0xF00F, 0x8002⟩
  | .xorReg _ _ => ⟨"XOR_Vx_Vy", 0xF00F, 0x8003⟩
  | .addReg _ _ => ⟨"ADD_Vx_Vy", 0xF00F, 0x8004⟩
  | .subReg _ _ => ⟨"SUB_Vx_Vy", 0xF00F, 0x8005⟩
  | .shr _ => ⟨"SHR_Vx", 0xF00F, 0x8006⟩
  | .subnReg _ _ => ⟨"SUBN_Vx_Vy", 0xF00F, 0x8007⟩
  | .shl _ => ⟨"SHL_Vx", 0xF00F, 0x800E⟩
  | .sneReg _ _ => ⟨"SNE_Vx_Vy", 0xF000, 0x9000⟩
  | .ldI _ => ⟨"LD_I_addr", 0xF000, 0xA000⟩
  | .jpV0 _ => ⟨"JP_V0_addr", 0xF000, 0xB000⟩
  | .rnd _ _ => ⟨"RND_Vx_byte", 0xF000, 0xC000⟩
  | .drw _ _ _ => ⟨"DRW_Vx_Vy_n", 0xF000, 0xD000⟩
  | .skp _ => ⟨"SKP_Vx", 0xF0FF, 0xE09E⟩
  | .sknp _ => ⟨"SKNP_Vx", 0xF0FF, 0xE0A1⟩
  | .ldVxDt _ => ⟨"LD_Vx_DT", 0xF0FF, 0xF007⟩
  | .ldVxK _ => ⟨"LD_Vx_K", 0xF0FF, 0xF00A⟩
  | .ldDtVx _ => ⟨"LD_DT_Vx", 0xF0FF, 0xF015⟩
  | .ldStVx _ => ⟨"LD_ST_Vx", 0xF0FF, 0xF018⟩
  | .addI _ => ⟨"ADD_I_Vx", 0xF0FF, 0xF01E⟩
  | .ldF _ => ⟨"LD_F_Vx", 0xF0FF, 0xF029⟩
  | .ldB _ => ⟨"LD_B_Vx", 0xF0FF, 0xF033⟩
  | .storeRegs _ => ⟨"LD__I__Vx", 0xF0FF, 0xF055⟩
  | .loadRegs _ => ⟨"LD_Vx__I", 0xF0FF, 0xF065⟩

/-- One instruction of each row, in opcode order (R72). -/
def onePerRow : List Instr :=
  [.cls, .ret, .jp 0, .call 0, .seByte 0 0, .sneByte 0 0, .seReg 0 0, .ldByte 0 0, .addByte 0 0, .ldReg 0 0,
    .orReg 0 0, .andReg 0 0, .xorReg 0 0, .addReg 0 0, .subReg 0 0, .shr 0, .subnReg 0 0, .shl 0]
    ++ [.sneReg 0 0, .ldI 0, .jpV0 0, .rnd 0 0, .drw 0 0 0, .skp 0, .sknp 0, .ldVxDt 0, .ldVxK 0, .ldDtVx 0,
    .ldStVx 0, .addI 0, .ldF 0, .ldB 0, .storeRegs 0, .loadRegs 0]

/-- The 34 rows of the table. -/
def opcodeTable : List Row := onePerRow.map Instr.row

/-! ### The table's own numbering of an instruction's bits -/

/-- The bytes, as the hardware stores them, of an instruction whose `nbits` table bits are `w`: one 16-bit word, bits
above `nbits` zero, high byte first (R42, R60). -/
def tableWordBytes (nbits w : Nat) : List Byte :=
  let op : Word := BitVec.ofNat 16 (w % 2 ^ nbits)
  [op.extractLsb' 8 8, op.extractLsb' 0 8]

/-- The instruction that the decoder reads from the table word `w`. -/
def decodeTableWord (nbits w : Nat) : Option Instr :=
  match decodeBytes (tableWordBytes nbits w) with
  | .ok i => some i
  | .error _ => none

/-! ### Assembler spelling (R72) -/

/-- One hexadecimal digit, as a register name and a number write it (R72). -/
def hexDigit (d : BitVec 4) : String :=
  match d with
  | 0x0#4 => "0" | 0x1#4 => "1" | 0x2#4 => "2" | 0x3#4 => "3"
  | 0x4#4 => "4" | 0x5#4 => "5" | 0x6#4 => "6" | 0x7#4 => "7"
  | 0x8#4 => "8" | 0x9#4 => "9" | 0xA#4 => "A" | 0xB#4 => "B"
  | 0xC#4 => "C" | 0xD#4 => "D" | 0xE#4 => "E" | _ => "F"

/-- `V0` to `VF` (R72). -/
def asmReg (x : Reg) : String := "V" ++ hexDigit (regBits x)

/-- A byte as `0x` and two digits (the spelling of R110's example; log 27). -/
def asmByte (b : Byte) : String :=
  "0x" ++ hexDigit (b.extractLsb' 4 4) ++ hexDigit (b.extractLsb' 0 4)

/-- An address as `0x` and three digits (log 27). -/
def asmAddr (a : Addr12) : String :=
  "0x" ++ hexDigit (a.extractLsb' 8 4) ++ hexDigit (a.extractLsb' 4 4) ++ hexDigit (a.extractLsb' 0 4)

/-- The instruction in the syntax of R72; the sprite height in decimal (log 27). -/
def Instr.asm : Instr → String
  | .cls => "CLS"
  | .ret => "RET"
  | .jp nnn => "JP " ++ asmAddr nnn
  | .call nnn => "CALL " ++ asmAddr nnn
  | .seByte x kk => "SE " ++ asmReg x ++ "," ++ asmByte kk
  | .sneByte x kk => "SNE " ++ asmReg x ++ "," ++ asmByte kk
  | .seReg x y => "SE " ++ asmReg x ++ "," ++ asmReg y
  | .ldByte x kk => "LD " ++ asmReg x ++ "," ++ asmByte kk
  | .addByte x kk => "ADD " ++ asmReg x ++ "," ++ asmByte kk
  | .ldReg x y => "LD " ++ asmReg x ++ "," ++ asmReg y
  | .orReg x y => "OR " ++ asmReg x ++ "," ++ asmReg y
  | .andReg x y => "AND " ++ asmReg x ++ "," ++ asmReg y
  | .xorReg x y => "XOR " ++ asmReg x ++ "," ++ asmReg y
  | .addReg x y => "ADD " ++ asmReg x ++ "," ++ asmReg y
  | .subReg x y => "SUB " ++ asmReg x ++ "," ++ asmReg y
  | .shr x => "SHR " ++ asmReg x
  | .subnReg x y => "SUBN " ++ asmReg x ++ "," ++ asmReg y
  | .shl x => "SHL " ++ asmReg x
  | .sneReg x y => "SNE " ++ asmReg x ++ "," ++ asmReg y
  | .ldI nnn => "LD I," ++ asmAddr nnn
  | .jpV0 nnn => "JP V0," ++ asmAddr nnn
  | .rnd x kk => "RND " ++ asmReg x ++ "," ++ asmByte kk
  | .drw x y n => "DRW " ++ asmReg x ++ "," ++ asmReg y ++ "," ++ Nat.repr n
  | .skp x => "SKP " ++ asmReg x
  | .sknp x => "SKNP " ++ asmReg x
  | .ldVxDt x => "LD " ++ asmReg x ++ ",DT"
  | .ldVxK x => "LD " ++ asmReg x ++ ",K"
  | .ldDtVx x => "LD DT," ++ asmReg x
  | .ldStVx x => "LD ST," ++ asmReg x
  | .addI x => "ADD I," ++ asmReg x
  | .ldF x => "LD F," ++ asmReg x
  | .ldB x => "LD B," ++ asmReg x
  | .storeRegs x => "LD [I]," ++ asmReg x
  | .loadRegs x => "LD " ++ asmReg x ++ ",[I]"

end Sys2Proof
end

