-- ==== Sys2Proof/Machine/Params.lean ====
section
/-! DEFINITION. The defaults of the open parameters (spec/00_scope.md R6). -/

namespace Sys2Proof.Machine

/-- The configuration of the default machine: SECKEY_0E = low_byte, VF_ORDER = result_last (R6; log 2, log 4). -/
def defaultParams : Config.Params where
  secKey := secKey0E
  vfOrder := .resultLast

end Sys2Proof.Machine
end

