-- ==== Sys2Proof/Machine/State.lean ====
section
/-! DEFINITION. The State Store of spec/10_state.md as plain data, the reasons a step can stop, and the state after
reset (spec/70_reset_and_hazards.md R400). -/

namespace Sys2Proof.Machine

/-- Memory (R24, R40): the bytes that differ from what the address holds at reset, in strictly rising address order.
`Memory.read` and `Memory.wf` in Machine/Ops.lean say how it reads and what the canonical form is (log 8). -/
abbrev Memory := List Host.Cell

/-- The frame buffer (R23): `screen[y][x]` is the cell at column `x`, row `y`; `true` is the cell value 1 (log 16). -/
abbrev Screen := Vector (Vector Bool 64) 32

/-- The keypad snapshot (R22): `true` is pressed. -/
abbrev Keypad := Vector Bool 16

/-- STATUS, the controller's state (R20). -/
inductive Status where
  | run
  | halted
  deriving DecidableEq, Repr

/-- The fault causes of 60_exceptions.md R304. -/
inductive Cause where
  | noFault
  | decodeFailure
  | addressOutOfRange
  | stackOverflow
  | stackUnderflow
  | keyIndexOutOfRange
  deriving DecidableEq, Repr

/-- All the state of the machine. The last four fields are the model's own (INVENTORY.md, State). -/
structure State where
  /-- V[0] to V[15] (R10); V[15] is VF (R11) -/
  v : Vector Byte 16
  /-- the program counter (R12) -/
  pc : Word
  /-- the index register (R13) -/
  i : Word
  /-- the stack pointer, 0 to 16 (R14) -/
  sp : Fin 17
  /-- the call stack (R15) -/
  stack : Vector Word 16
  /-- the delay timer (R16) -/
  dt : Byte
  /-- the sound timer (R17) -/
  st : Byte
  /-- STATUS (R20) -/
  status : Status
  /-- FCAUSE (R21) -/
  fcause : Cause
  /-- FPC (R21) -/
  fpc : Word
  /-- FOP (R21) -/
  fop : Word
  /-- the keypad snapshot (R22) -/
  key : Keypad
  /-- the frame buffer (R23) -/
  screen : Screen
  /-- memory (R24) -/
  mem : Memory
  /-- MODEL's own: the bytes the host has put on the input `rnd_in` (R161) for the coming draws (log 5) -/
  rndIn : List Byte
  /-- MODEL's own: how many free random bytes have been drawn (log 5) -/
  rndDraws : Nat
  /-- MODEL's own: no cycle and no load since reset, the precondition of `load` (R32; log 21) -/
  loadOpen : Bool
  /-- MODEL's own: the configuration, SECKEY_0E and VF_ORDER (R6), which the step reads and nothing writes (log 28) -/
  params : Config.Params
  deriving DecidableEq, Repr

/-- Reasons to stop with a fault. There are none: every fault of the spec is a NEXT state with STATUS = HALTED
(60_exceptions.md R303), so nobody raises a value of this type, and it has no constructor (log 9). -/
inductive Fault : Type
  deriving DecidableEq, Repr

/-- Reasons to give no meaning. -/
inductive Refusal where
  /-- Raised by `exec` alone, for an instruction that has no meaning yet; no arm raises it now. Safe. -/
  | notModelled (mnemonic : String)
  /-- Raised by the host operation `load` for more than 3584 bytes (70_reset_and_hazards.md R402). Safe. -/
  | programTooLong
  /-- Raised by the host operation `load` after a cycle or another load (70_reset_and_hazards.md R402). Safe. -/
  | loadNotOpen
  deriving DecidableEq, Repr

/-- What a meaning, a step and a host operation answer. -/
abbrev Result := Host.Outcome State Fault Refusal

/-- The default machine right after reset (R400, R6). -/
def State.reset : State where
  v := Vector.replicate 16 0x00
  pc := 0x0200
  i := 0x0000
  sp := 0
  stack := Vector.replicate 16 0x0000
  dt := 0x00
  st := 0x00
  status := .run
  fcause := .noFault
  fpc := 0x0000
  fop := 0x0000
  key := Vector.replicate 16 false
  screen := Vector.replicate 32 (Vector.replicate 64 false)
  mem := []
  rndIn := []
  rndDraws := 0
  loadOpen := true
  params := defaultParams

/-- The machine of a given configuration right after reset (R400, R6). -/
def State.resetWith (p : Config.Params) : State := { State.reset with params := p }

end Sys2Proof.Machine
end

