-- ==== Sys2Proof/Machine/Ops.lean ====
section
/-! DEFINITION. The named operations over memory, the program counter, the call stack, the screen, the keypad, the
timers and the random input, and taking a fault. Every meaning is written over these. -/

namespace Sys2Proof.Machine

/-! ### Memory (spec/20_memory.md) -/

/-- The 80 font bytes, glyph 0 to glyph F, top row first (R47; the bytes are K3 of 93_implementation_defined.md). -/
def fontBytes : List Byte :=
  [0xF0, 0x90, 0x90, 0x90, 0xF0,  0x20, 0x60, 0x20, 0x20, 0x70,  0xF0, 0x10, 0xF0, 0x80, 0xF0,
   0xF0, 0x10, 0xF0, 0x10, 0xF0,  0x90, 0x90, 0xF0, 0x10, 0x10,  0xF0, 0x80, 0xF0, 0x10, 0xF0]
  ++ [0xF0, 0x80, 0xF0, 0x90, 0xF0,  0xF0, 0x10, 0x20, 0x40, 0x40,  0xF0, 0x90, 0xF0, 0x90, 0xF0,
   0xF0, 0x90, 0xF0, 0x10, 0xF0,  0xF0, 0x90, 0xF0, 0x90, 0x90]
  ++ [0xE0, 0x90, 0xE0, 0x90, 0xE0,  0xF0, 0x80, 0x80, 0x80, 0xF0,  0xE0, 0x90, 0x90, 0x90, 0xE0,
   0xF0, 0x80, 0xF0, 0x80, 0xF0,  0xF0, 0x80, 0xF0, 0x80, 0x80]

/-- What an unlisted address reads as: the reset contents, the font at 0x050 to 0x09F and 0x00 elsewhere (R400). -/
def initByte (a : Nat) : Byte :=
  if Config.fontBase ≤ a then fontBytes.getD (a - Config.fontBase) 0x00 else 0x00

/-- The byte at an address. -/
def Memory.read : Memory → Nat → Byte
  | [], a => initByte a
  | c :: m, a => if c.1 = a then c.2 else Memory.read m a

/-- The memory without any entry for `a`, so that `a` reads as at reset. -/
def Memory.erase (m : Memory) (a : Nat) : Memory := m.filter fun c => c.1 != a

/-- The memory with an entry for `a` put before the first larger address. -/
def Memory.insert : Memory → Nat → Byte → Memory
  | [], a, b => [(a, b)]
  | c :: m, a, b => if a < c.1 then (a, b) :: c :: m else c :: Memory.insert m a b

/-- Write one byte, keeping the canonical form. -/
def Memory.write (m : Memory) (a : Nat) (b : Byte) : Memory :=
  if b = initByte a then m.erase a else (m.erase a).insert a b

/-- The addresses rise strictly from `lo` on, all are below 4096, and no entry repeats what the address reads as
without it. -/
def Memory.wfFrom : Nat → Memory → Bool
  | _, [] => true
  | lo, c :: m => decide (lo ≤ c.1) && decide (c.1 < Config.memSize) && c.2 != initByte c.1 && Memory.wfFrom (c.1 + 1) m

/-- The canonical form of memory. -/
def Memory.wf (m : Memory) : Bool := m.wfFrom 0

/-- The bytes from `a` on, lowest address first. -/
def Memory.bytes (m : Memory) (a n : Nat) : List Byte := (List.range n).map fun k => m.read (a + k)

/-- Write a list of bytes, lowest address first (R46). -/
def Memory.writeBytes (m : Memory) (a : Nat) : List Byte → Memory
  | [] => m
  | b :: bs => (m.write a b).writeBytes (a + 1) bs

/-- An `n`-byte access from `a` stays inside memory (R45): no access at all when `n = 0`, else `a + n - 1 ≤ 4095`. -/
def accessInRange (a n : Nat) : Bool := n == 0 || decide (a + n - 1 ≤ 4095)

/-- `MemRead(addr, n)` (R8, R45): `none` where it raises AddressOutOfRange. -/
def memRead (m : Memory) (a n : Nat) : Option (List Byte) :=
  if accessInRange a n then some (m.bytes a n) else none

/-- `MemWrite(addr, n, v)` (R8, R45): `none` where it raises AddressOutOfRange, before any byte is written. -/
def memWrite (m : Memory) (a : Nat) (bs : List Byte) : Option Memory :=
  if accessInRange a bs.length then some (m.writeBytes a bs) else none

/-- The big-endian instruction word at an address (R42). -/
def Memory.word (m : Memory) (a : Nat) : Word := wordOfBytes (m.read a) (m.read (a + 1))

/-! ### Faults (spec/60_exceptions.md) -/

/-- The number of a cause (R304). -/
def Cause.code : Cause → Nat
  | .noFault => 0
  | .decodeFailure => 1
  | .addressOutOfRange => 2
  | .stackOverflow => 3
  | .stackUnderflow => 4
  | .keyIndexOutOfRange => 5

/-- TAKING A FAULT (R303): STATUS becomes HALTED, the record is written, PC is the fetch address, and everything else
stays as it was before the cycle. There is no handler and no return (R309). -/
def takeFault (c : Cause) (fetchPc word : Word) (s : State) : State :=
  { s with status := .halted, fcause := c, fpc := fetchPc, fop := word, pc := fetchPc }

/-- The address that the executing instruction was fetched from: PC has already advanced by 2 (R30, R410). -/
def fetchAddress (s : State) : Word := s.pc - 2

/-- `raise` in the execute phase (R8, R303), before any write: FPC is the fetch address and FOP the word there, which
no write of this cycle has touched yet (log 11). -/
def raise (c : Cause) (s : State) : State :=
  takeFault c (fetchAddress s) (s.mem.word (fetchAddress s).toNat) s

/-! ### The program counter and the call stack -/

/-- `PC <- (PC + 2) mod 2^16`: the advance of R30 and the extra step of the skips (R103). -/
def State.pcPlus2 (s : State) : State := { s with pc := s.pc + 2 }

/-- `PC <- (PC - 2) mod 2^16`: the rewind of a waiting `LD Vx,K` (R182). -/
def State.pcMinus2 (s : State) : State := { s with pc := s.pc - 2 }

/-- Skip the next instruction when the condition holds (R103 to R106, R180, R181). -/
def skipIf (c : Bool) (s : State) : State := if c then s.pcPlus2 else s

/-- Push (R101): the entry at SP is written, then SP grows; `none` when SP = 16. -/
def push (w : Word) (s : State) : Option State :=
  if h : s.sp.val < 16 then
    some { s with stack := s.stack.set s.sp.val w, sp := ⟨s.sp.val + 1, by omega⟩ }
  else none

/-- Pop (R102): SP shrinks, then the entry there is read; `none` when SP = 0. The entry is not erased (R15). -/
def pop (s : State) : Option (Word × State) :=
  if h : s.sp.val = 0 then none
  else some (s.stack[s.sp.val - 1], { s with sp := ⟨s.sp.val - 1, by omega⟩ })

/-! ### The screen (spec/46_display.md) -/

/-- All 2048 cells 0 (R170). -/
def clearScreen : Screen := Vector.replicate 32 (Vector.replicate 64 false)

/-- The cell at column `px`, row `py`; outside the buffer there is none, read as `false`. -/
def Screen.cell (sc : Screen) (px py : Nat) : Bool :=
  if h : px ≤ 63 ∧ py ≤ 31 then sc[py][px] else false

/-- XOR one set sprite bit onto the screen (R171), dropped outside the buffer (R172). The Bool gathers the collision:
this XOR turns a set pixel off. -/
def xorPixel (px py : Nat) (acc : Screen × Bool) : Screen × Bool :=
  if h : px ≤ 63 ∧ py ≤ 31 then
    (acc.1.set py (acc.1[py].set px (!acc.1[py][px])), acc.2 || acc.1[py][px])
  else acc

/-- One row of a sprite, left to right: bit 7 is column 0 (R173). -/
def drawRow (px py : Nat) (row : Byte) (acc : Screen × Bool) : Screen × Bool :=
  (List.range 8).foldl (fun a col => if row.getLsbD (7 - col) then xorPixel (px + col) py a else a) acc

/-- The rows of a sprite, top to bottom, from row `py` on; coordinates are natural numbers (R175). -/
def drawRows (px : Nat) : Nat → List Byte → Screen × Bool → Screen × Bool
  | _, [], acc => acc
  | py, row :: rows, acc => drawRows px (py + 1) rows (drawRow px py row acc)

/-! ### The keypad (spec/47_keypad.md) -/

/-- The least pressed key, scanning 0 to 15 in ascending order (R182). -/
def firstKey (k : Keypad) : Option (Fin 16) := (List.finRange 16).find? fun j => k[j]

/-! ### The timers (60_exceptions.md R320) -/

/-- One tick of one timer: down by 1 while nonzero, a timer at 0 stays at 0. -/
def tickTimer (t : Byte) : Byte := if t = 0 then 0 else t - 1

/-- The tick of both timers. -/
def tick (s : State) : State := { s with dt := tickTimer s.dt, st := tickTimer s.st }

/-! ### The random input (spec/45_random.md R161) -/

/-- The byte that the input `rnd_in` presents: the host's, where it has put one, else a free byte (log 5). -/
def rndByte (s : State) : Byte :=
  match s.rndIn with
  | b :: _ => b
  | [] => Config.rndByte s.rndDraws

/-- The state after the input has been sampled: that byte is used up. -/
def rndSampled (s : State) : State :=
  match s.rndIn with
  | _ :: bs => { s with rndIn := bs }
  | [] => { s with rndDraws := s.rndDraws + 1 }

/-! ### The phases of the cycle around execution (10_state.md R30) -/

/-- A cycle has begun: the host's `load` is no longer open (R32). -/
def closeLoad (s : State) : State := { s with loadOpen := false }

/-- Phases 1 and 3, fetch and decode under the machine's SECKEY_0E: the instruction, or the cause and the FOP of the fault (R43, R300, R304). -/
def fetchDecode (s : State) : Except (Cause × Word) Instr :=
  if s.pc.toNat + 1 > 4095 then .error (.addressOutOfRange, 0x0000)
  else match decodeWith s.params.secKey (s.mem.word s.pc.toNat) with
    | .ok i => .ok i
    | .error _ => .error (.decodeFailure, s.mem.word s.pc.toNat)

/-- Phase 2, advance. -/
def advance (s : State) : State := (closeLoad s).pcPlus2

/-- Phase 5: the tick, in a cycle that completed without a fault (R303, R320). -/
def tickUnlessHalted (s : State) : State :=
  match s.status with
  | .run => tick s
  | .halted => s

/-- What the cycle answers, from what execution answered. -/
def finishCycle : Result → Result
  | .next s => .next (tickUnlessHalted s)
  | .fault f => .fault f
  | .refused r => .refused r

/-- Store an instruction's bytes where the next fetch reads, for addresses inside memory. -/
def placeAtPc (bs : List Byte) (s : State) : State :=
  match memWrite s.mem s.pc.toNat bs with
  | some m => { s with mem := m }
  | none => s

end Sys2Proof.Machine
end

