-- ==== Sys2Proof/Machine/Operands.lean ====
section
/-! DEFINITION. The operand forms: a general register, the flag register, an immediate byte or address (used as it
stands, spec/30_encoding.md R74), the run of registers V[0] to V[x] of a block transfer, the digits of `LD B,Vx`. -/

namespace Sys2Proof.Machine

/-- Read of `V[x]` (R10). -/
def State.getV (s : State) (x : Reg) : Byte := s.v[x]

/-- `V[x] <- b` (R10): every register is writable, none is hardwired. -/
def State.setV (s : State) (x : Reg) (b : Byte) : State := { s with v := s.v.set x b }

/-- VF = V[15], the flag register (R11). -/
def vf : Reg := 15

/-- The values of V[0] to V[x], V[0] first (R203). -/
def regRun (s : State) (x : Reg) : List Byte := (List.range (x.val + 1)).map fun k => s.v.getD k 0

/-- The state with the bytes written to the registers from `V[k]` up (R204). -/
def loadRun (s : State) : Nat → List Byte → State
  | _, [] => s
  | k, b :: bs => loadRun { s with v := s.v.setIfInBounds k b } (k + 1) bs

/-- The three decimal digits of a byte: hundreds, tens, ones (R201). -/
def bcdDigits (b : Byte) : List Byte :=
  [BitVec.ofNat 8 (b.toNat / 100), BitVec.ofNat 8 (b.toNat / 10 % 10), BitVec.ofNat 8 (b.toNat % 10)]

/-- The address of the font glyph of the low nibble: `0x050 + (vx mod 16) * 5` (R200). -/
def glyphAddress (b : Byte) : Word :=
  BitVec.ofNat 16 (Config.fontBase + b.toNat % 16 * Config.fontGlyphBytes)

/-- The key that a register value names (R183): `none` where the value is above 15. -/
def keyOf (b : Byte) : Option (Fin 16) := if h : b.toNat < 16 then some ⟨b.toNat, h⟩ else none

end Sys2Proof.Machine
end

