-- ==== Sys2Proof/Machine/Flags.lean ====
section
/-! DEFINITION. The values written to VF (spec/10_state.md R11) and the order of the flag write and the result write
(R33; parameter VF_ORDER of 00_scope.md R6, alternatives in 93_implementation_defined.md U3). -/

namespace Sys2Proof.Machine

/-- A flag write stores the full byte 0x00 or 0x01 (R11). -/
def flagByte (c : Bool) : Byte := if c then 0x01 else 0x00

/-- Carry of `ADD Vx,Vy` (R121): `vx + vy > 255`. -/
def addFlag (a b : Byte) : Byte := flagByte (decide (a.toNat + b.toNat > 255))

/-- No borrow of `SUB Vx,Vy` (R122): `vx ≥ vy`. -/
def subFlag (a b : Byte) : Byte := flagByte (decide (a.toNat ≥ b.toNat))

/-- The flag of `SUBN Vx,Vy` (R123): `vy > vx`, strictly. -/
def subnFlag (a b : Byte) : Byte := flagByte (decide (b.toNat > a.toNat))

/-- The bit that `SHR Vx` shifts out (R140): `vx[0]`. -/
def shrFlag (a : Byte) : Byte := flagByte (a.getLsbD 0)

/-- The bit that `SHL Vx` shifts out (R141): `vx[7]`. -/
def shlFlag (a : Byte) : Byte := flagByte (a.getLsbD 7)

/-- The flag and result writes of an instruction on `V[x]` and `V[y]` with destination `V[x]`, in a given order. Both
functions take the operand values. -/
def flagAndResult (ord : Config.VfOrder) (flag result : Byte → Byte → Byte) (x y : Reg) (s : State) : State :=
  match ord with
  | .resultLast => (s.setV vf (flag (s.getV x) (s.getV y))).setV x (result (s.getV x) (s.getV y))
  | .flagLast => (s.setV x (result (s.getV x) (s.getV y))).setV vf (flag (s.getV x) (s.getV y))
  | .sequential | .sequentialSumKept =>
    let s1 := s.setV vf (flag (s.getV x) (s.getV y))
    s1.setV x (result (s1.getV x) (s1.getV y))

/-- The order that the sum of `ADD Vx,Vy` follows: the machine's, but for a sum that is not re-read (U3). -/
def sumOrder (ord : Config.VfOrder) : Config.VfOrder :=
  match ord with
  | .sequentialSumKept => .resultLast
  | .resultLast => .resultLast
  | .flagLast => .flagLast
  | .sequential => .sequential

/-- The state in which `DRW` reads its coordinates: before VF is cleared, but after it in the `sequential` orders. -/
def coordinateState (ord : Config.VfOrder) (s : State) : State :=
  match ord with
  | .resultLast | .flagLast => s
  | .sequential | .sequentialSumKept => s.setV vf 0x00

end Sys2Proof.Machine
end

