-- ==== Sys2Proof/Machine/Arith.lean ====
section
/-! DEFINITION. Arithmetic and logic (spec/42_arithmetic_logic.md); `+` and `-` on bytes are modulo 256 (R127). -/

namespace Sys2Proof.Machine

/-- `ADD Vx,byte` (R120): no flag. -/
def execAddByte (x : Reg) (kk : Byte) (s : State) : Result := .next (s.setV x (s.getV x + kk))

/-- `ADD Vx,Vy` (R121). -/
def execAddReg (x y : Reg) (s : State) : Result :=
  .next (flagAndResult (sumOrder s.params.vfOrder) addFlag (fun a b => a + b) x y s)

/-- `SUB Vx,Vy` (R122). -/
def execSubReg (x y : Reg) (s : State) : Result :=
  .next (flagAndResult s.params.vfOrder subFlag (fun a b => a - b) x y s)

/-- `SUBN Vx,Vy` (R123): operands reversed, destination still `x`. -/
def execSubnReg (x y : Reg) (s : State) : Result :=
  .next (flagAndResult s.params.vfOrder subnFlag (fun a b => b - a) x y s)

/-- `OR Vx,Vy` (R124): no flag. -/
def execOrReg (x y : Reg) (s : State) : Result := .next (s.setV x (s.getV x ||| s.getV y))

/-- `AND Vx,Vy` (R125): no flag. -/
def execAndReg (x y : Reg) (s : State) : Result := .next (s.setV x (s.getV x &&& s.getV y))

/-- `XOR Vx,Vy` (R126): no flag. -/
def execXorReg (x y : Reg) (s : State) : Result := .next (s.setV x (s.getV x ^^^ s.getV y))

end Sys2Proof.Machine
end

