-- ==== Sys2Proof/Machine/Block.lean ====
section
/-! DEFINITION. BCD and block transfer (spec/49_font_bcd_block.md). `I` is unchanged by all three (R202), and each is
checked over its whole range before any effect (R45). -/

namespace Sys2Proof.Machine

/-- `LD B,Vx` (R201). -/
def execLdB (x : Reg) (s : State) : Result :=
  match memWrite s.mem s.i.toNat (bcdDigits (s.getV x)) with
  | some m => .next { s with mem := m }
  | none => .next (raise .addressOutOfRange s)

/-- `LD [I],Vx` (R203): V[0] to V[x], inclusive. -/
def execStoreRegs (x : Reg) (s : State) : Result :=
  match memWrite s.mem s.i.toNat (regRun s x) with
  | some m => .next { s with mem := m }
  | none => .next (raise .addressOutOfRange s)

/-- `LD Vx,[I]` (R204): V[0] to V[x], inclusive. -/
def execLoadRegs (x : Reg) (s : State) : Result :=
  match memRead s.mem s.i.toNat (x.val + 1) with
  | some bs => .next (loadRun s 0 bs)
  | none => .next (raise .addressOutOfRange s)

end Sys2Proof.Machine
end

