-- ==== Sys2Proof/Machine/Control.lean ====
section
/-! DEFINITION. Control flow (spec/40_control_flow.md). PC is already the address of the next instruction (R30). -/

namespace Sys2Proof.Machine

/-- `JP addr` (R100). -/
def execJp (nnn : Addr12) (s : State) : Result := .next { s with pc := zextAddr nnn }

/-- `CALL addr` (R101): pushes the post-increment PC; StackOverflow (R301) when SP = 16. -/
def execCall (nnn : Addr12) (s : State) : Result :=
  match push s.pc s with
  | some s' => .next { s' with pc := zextAddr nnn }
  | none => .next (raise .stackOverflow s)

/-- `RET` (R102): pops into PC; StackUnderflow (R302) when SP = 0. -/
def execRet (s : State) : Result :=
  match pop s with
  | some (w, s') => .next { s' with pc := w }
  | none => .next (raise .stackUnderflow s)

/-- `SE Vx,byte` (R103). -/
def execSeByte (x : Reg) (kk : Byte) (s : State) : Result := .next (skipIf (s.getV x == kk) s)

/-- `SNE Vx,byte` (R104). -/
def execSneByte (x : Reg) (kk : Byte) (s : State) : Result := .next (skipIf (s.getV x != kk) s)

/-- `SE Vx,Vy` (R105). -/
def execSeReg (x y : Reg) (s : State) : Result := .next (skipIf (s.getV x == s.getV y) s)

/-- `SNE Vx,Vy` (R106). -/
def execSneReg (x y : Reg) (s : State) : Result := .next (skipIf (s.getV x != s.getV y) s)

/-- `JP V0,addr` (R107): always V[0], not reduced modulo 4096. -/
def execJpV0 (nnn : Addr12) (s : State) : Result :=
  .next { s with pc := zextByte (s.getV 0) + zextAddr nnn }

end Sys2Proof.Machine
end

