-- ==== Sys2Proof/Machine/Display.lean ====
section
/-! DEFINITION. The display instructions (spec/46_display.md). -/

namespace Sys2Proof.Machine

/-- `CLS` (R170). -/
def execCls (s : State) : Result := .next { s with screen := clearScreen }

/-- The screen and the collision of a sprite drawn at column `vx`, row `vy` (R171, R172, R175). -/
def drawSprite (vx vy : Byte) (rows : List Byte) (sc : Screen) : Screen × Bool :=
  drawRows vx.toNat vy.toNat rows (sc, false)

/-- `DRW Vx,Vy,n` (R171): all `n` bytes are read and checked first (R45; none for `n = 0`, R174), the coordinates are
latched (R33; or re-read after VF is cleared, as the machine's VF_ORDER says), VF ends as the collision flag. -/
def execDrw (x y : Reg) (n : Nat) (s : State) : Result :=
  match memRead s.mem s.i.toNat n with
  | none => .next (raise .addressOutOfRange s)
  | some rows =>
    let src := coordinateState s.params.vfOrder s
    let drawn := drawSprite (src.getV x) (src.getV y) rows s.screen
    .next ({ s with screen := drawn.1 }.setV vf (flagByte drawn.2))

end Sys2Proof.Machine
end

