-- ==== Sys2Proof/Machine/Index.lean ====
section
/-! DEFINITION. The index register (spec/44_index.md) and the font pointer (49_font_bcd_block.md R200). -/

namespace Sys2Proof.Machine

/-- `LD I,addr` (R150). -/
def execLdI (nnn : Addr12) (s : State) : Result := .next { s with i := zextAddr nnn }

/-- `ADD I,Vx` (R151): modulo 65536, no flag, no range check. -/
def execAddI (x : Reg) (s : State) : Result := .next { s with i := s.i + zextByte (s.getV x) }

/-- `LD F,Vx` (R200). -/
def execLdF (x : Reg) (s : State) : Result := .next { s with i := glyphAddress (s.getV x) }

end Sys2Proof.Machine
end

