-- ==== Sys2Proof/Machine/Keys.lean ====
section
/-! DEFINITION. The keypad instructions (spec/47_keypad.md). -/

namespace Sys2Proof.Machine

/-- `SKP Vx` (R180); KeyIndexOutOfRange (R183, R306) when `vx > 15`. -/
def execSkp (x : Reg) (s : State) : Result :=
  match keyOf (s.getV x) with
  | some k => .next (skipIf s.key[k] s)
  | none => .next (raise .keyIndexOutOfRange s)

/-- `SKNP Vx` (R181); KeyIndexOutOfRange (R183, R306) when `vx > 15`. -/
def execSknp (x : Reg) (s : State) : Result :=
  match keyOf (s.getV x) with
  | some k => .next (skipIf (!s.key[k]) s)
  | none => .next (raise .keyIndexOutOfRange s)

/-- `LD Vx,K` (R182): the least pressed key, or back to the same instruction. -/
def execLdVxK (x : Reg) (s : State) : Result :=
  match firstKey s.key with
  | some k => .next (s.setV x (BitVec.ofNat 8 k.val))
  | none => .next s.pcMinus2

end Sys2Proof.Machine
end

