-- ==== Sys2Proof/Machine/Moves.lean ====
section
/-! DEFINITION. Immediate and register moves (spec/41_moves.md). -/

namespace Sys2Proof.Machine

/-- `LD Vx,byte` (R110). -/
def execLdByte (x : Reg) (kk : Byte) (s : State) : Result := .next (s.setV x kk)

/-- `LD Vx,Vy` (R111). -/
def execLdReg (x y : Reg) (s : State) : Result := .next (s.setV x (s.getV y))

end Sys2Proof.Machine
end

