-- ==== Sys2Proof/Machine/Random.lean ====
section
/-! DEFINITION. `RND Vx,byte` (spec/45_random.md). -/

namespace Sys2Proof.Machine

/-- `RND Vx,byte` (R160): `V[x] <- rnd_in & kk`. -/
def execRnd (x : Reg) (kk : Byte) (s : State) : Result := .next ((rndSampled s).setV x (rndByte s &&& kk))

end Sys2Proof.Machine
end

