-- ==== Sys2Proof/Machine/Shifts.lean ====
section
/-! DEFINITION. Shifts (spec/43_shifts.md): one register operand, distance 1, zeros enter. -/

namespace Sys2Proof.Machine

/-- `SHR Vx` (R140). -/
def execShr (x : Reg) (s : State) : Result :=
  .next (flagAndResult s.params.vfOrder (fun a _ => shrFlag a) (fun a _ => a >>> 1) x x s)

/-- `SHL Vx` (R141). -/
def execShl (x : Reg) (s : State) : Result :=
  .next (flagAndResult s.params.vfOrder (fun a _ => shlFlag a) (fun a _ => a <<< 1) x x s)

end Sys2Proof.Machine
end

