-- ==== Sys2Proof/Machine/Timers.lean ====
section
/-! DEFINITION. The timer moves (spec/48_timer_moves.md). The tick of the same cycle comes after (R30, R411). -/

namespace Sys2Proof.Machine

/-- `LD Vx,DT` (R190). -/
def execLdVxDt (x : Reg) (s : State) : Result := .next (s.setV x s.dt)

/-- `LD DT,Vx` (R191). -/
def execLdDtVx (x : Reg) (s : State) : Result := .next { s with dt := s.getV x }

/-- `LD ST,Vx` (R192). -/
def execLdStVx (x : Reg) (s : State) : Result := .next { s with st := s.getV x }

end Sys2Proof.Machine
end

