-- ==== Sys2Proof/Machine/Step.lean ====
section
/-! DEFINITION. One step of the core is one cycle (spec/10_state.md R30): fetch, advance, decode, execute, tick. -/

namespace Sys2Proof.Machine

/-- One `cycle` request. In HALTED it changes nothing (60_exceptions.md R309). A fault of the fetch or of the decoder
is taken at the fetch address (R43, R300, R303); a decoded instruction runs with PC advanced, and the timers tick
unless it faulted (R320). -/
def step (s : State) : Host.Outcome State Fault Refusal :=
  match s.status with
  | .halted => .next s
  | .run =>
    match fetchDecode s with
    | .error (c, word) => .next (takeFault c s.pc word (closeLoad s))
    | .ok i => finishCycle (exec i (advance s))

/-- The state with the table word `w` stored where the next fetch reads: the two bytes at PC (log 24). -/
def State.withFetchWord (s : State) (nbits w : Nat) : State := placeAtPc (tableWordBytes nbits w) s

end Sys2Proof.Machine
end

