-- ==== Sys2Proof/Machine/HostOps.lean ====
section
/-! DEFINITION. The host operations of spec/10_state.md R32, each strictly between two cycles (R31). `step` itself is
`cycle` with the random byte left free; `hostCycle` is `cycle(rnd_in)` with the byte the host gives (log 21, log 23). -/

namespace Sys2Proof.Machine

/-- The operations of R32 that can change the state. -/
inductive HostOp where
  | reset
  | load (bytes : List Byte)
  | setKeypad (k : Keypad)
  | cycle (rndIn : Byte)
  deriving DecidableEq, Repr

/-- `load(bytes)` (R402): copied verbatim from 0x200 on; refused after a cycle or another load, and above 3584 bytes. -/
def hostLoad (bytes : List Byte) (s : State) : Result :=
  if s.loadOpen = false then .refused .loadNotOpen
  else if bytes.length > Config.progMax then .refused .programTooLong
  else .next { s with mem := s.mem.writeBytes Config.progBase bytes, loadOpen := false }

/-- `set_keypad` (R32). -/
def hostSetKeypad (k : Keypad) (s : State) : State := { s with key := k }

/-- `cycle(rnd_in)` (R30, R32): the byte is offered to this one cycle, and dropped when the cycle executes no `RND`. -/
def hostCycle (rndIn : Byte) (s : State) : Result :=
  match step { s with rndIn := [rndIn] } with
  | .next t => .next { t with rndIn := s.rndIn }
  | .fault f => .fault f
  | .refused r => .refused r

/-- One host operation. `reset` leaves the configuration as it is: it is no state (R25). -/
def hostStep (op : HostOp) (s : State) : Result :=
  match op with
  | .reset => .next (State.resetWith s.params)
  | .load bytes => hostLoad bytes s
  | .setKeypad k => .next (hostSetKeypad k s)
  | .cycle rndIn => hostCycle rndIn s

/-- `read_screen` (R32): 2048 cells of 0 or 1, row-major, index = y * 64 + x (R23). Changes nothing. -/
def readScreen (s : State) : List Byte :=
  s.screen.toList.flatMap fun row => row.toList.map fun c => if c then 0x01 else 0x00

/-- What `read_status` returns (R32). -/
structure StatusReport where
  status : Status
  fcause : Nat
  fpc : Word
  fop : Word
  st : Byte
  dt : Byte
  deriving DecidableEq, Repr

/-- `read_status` (R32): STATUS, FCAUSE as its code, FPC, FOP, and the timers. Changes nothing. -/
def readStatus (s : State) : StatusReport :=
  ⟨s.status, s.fcause.code, s.fpc, s.fop, s.st, s.dt⟩

end Sys2Proof.Machine
end

