-- ==== Sys2Proof/Safety.lean ====
section
/-! DEFINITION. What a safe run is, in the terms the statements use: which fault a cycle is due to raise, the
invariant of the machine, the states that the host and the core can reach, runs that never halt, the access table of
10_state.md R26, the frames, and the cells that a sprite covers. Nothing here is used by the machine. -/

namespace Sys2Proof.Machine

/-- The execute-phase check of an instruction, from the table of 60_exceptions.md R304 and R307: the fault it is due
to raise in state `s`, if any. It does not look at how the instruction is executed. -/
def executeFault (i : Instr) (s : State) : Option Cause :=
  match i with
  | .call _ => if s.sp.val = 16 then some .stackOverflow else none
  | .ret => if s.sp.val = 0 then some .stackUnderflow else none
  | .skp x | .sknp x => if (s.getV x).toNat > 15 then some .keyIndexOutOfRange else none
  | .drw _ _ n => if n ≥ 1 ∧ s.i.toNat + n - 1 > 4095 then some .addressOutOfRange else none
  | .ldB _ => if s.i.toNat + 2 > 4095 then some .addressOutOfRange else none
  | .storeRegs x | .loadRegs x => if s.i.toNat + x.val > 4095 then some .addressOutOfRange else none
  | .cls | .jp _ | .seByte _ _ | .sneByte _ _ | .seReg _ _ | .ldByte _ _ | .addByte _ _ | .ldReg _ _ | .orReg _ _
  | .andReg _ _ | .xorReg _ _ | .addReg _ _ | .subReg _ _ | .shr _ | .subnReg _ _ | .shl _ | .sneReg _ _ | .ldI _
  | .jpV0 _ | .rnd _ _ | .ldVxDt _ | .ldVxK _ | .ldDtVx _ | .ldStVx _ | .addI _ | .ldF _ => none

/-- The fault that a cycle from `s` is due to raise, with its FOP, in the order of R307: fetch, decode, execute. -/
def dueFault (s : State) : Option (Cause × Word) :=
  if s.pc.toNat + 1 > 4095 then some (.addressOutOfRange, 0x0000)
  else match decodeWith s.params.secKey (s.mem.word s.pc.toNat) with
    | .error _ => some (.decodeFailure, s.mem.word s.pc.toNat)
    | .ok i => (executeFault i s).map fun c => (c, s.mem.word s.pc.toNat)

/-- The invariant of the machine. -/
structure State.Inv (s : State) : Prop where
  /-- memory has its canonical form (log 8) -/
  memCanonical : s.mem.wf = true
  /-- "the largest value any instruction can put in PC is 0x0FFF + 0xFF = 0x10FE" (R12) -/
  pcBound : s.pc.toNat ≤ 0x10FE
  /-- a stack entry is a return address or 0x0000 (R15, R101): at most the address after the last fetch, 0x1000 -/
  stackBound : ∀ k : Fin 16, (s.stack[k]).toNat ≤ 0x1000
  /-- no record is written before the core halts (R21) -/
  runRecord : s.status = .run → s.fcause = .noFault ∧ s.fpc = 0 ∧ s.fop = 0
  /-- the record of a halted core names the fault that its state is still due to raise (R303: nothing else changed) -/
  haltedRecord : s.status = .halted → dueFault s = some (s.fcause, s.fop) ∧ s.fpc = s.pc ∧ s.loadOpen = false
  /-- while `load` is open the state is the machine's reset state, apart from the host's inputs (R32) -/
  openIsReset : s.loadOpen = true →
    s = { State.resetWith s.params with key := s.key, rndIn := s.rndIn, rndDraws := s.rndDraws }

/-- The states that the host operations (R32) and the core's own steps reach from the reset of any configuration. -/
inductive Reachable : State → Prop where
  | reset (p : Config.Params) : Reachable (State.resetWith p)
  | host {s t : State} (op : HostOp) : Reachable s → hostStep op s = .next t → Reachable t
  | step {s t : State} : Reachable s → Machine.step s = .next t → Reachable t

/-- The run of `n` steps never halts: HALTED "is a failure, never a normal end" (R35). -/
def safeFor : Nat → State → Prop
  | 0, s => s.status = .run
  | n + 1, s => s.status = .run ∧ ∃ t, Machine.step s = .next t ∧ safeFor n t

/-- Instructions executed one after the other, each from the state the one before left (no fetch, no tick). -/
def execAll : List Instr → State → Result
  | [], s => .next s
  | i :: is, s =>
    match exec i s with
    | .next t => execAll is t
    | .fault f => .fault f
    | .refused r => .refused r

/-- The instruction word that the next cycle fetches: big-endian, from PC and PC + 1 (R42). -/
def nextWord (s : State) : Word := wordOfBytes (s.mem.read s.pc.toNat) (s.mem.read (s.pc.toNat + 1))

/-- The word decodes to the instruction, whatever SECKEY_0E is. -/
def decodesTo (w : Word) (i : Instr) : Prop := ∀ key, decodeWith key w = .ok i

/-- The next cycle fetches and decodes the instruction `i`: the core runs, the two bytes at PC are in memory, and they
decode to `i` under the machine's SECKEY_0E. -/
def fetches (s : State) (i : Instr) : Prop :=
  s.status = .run ∧ s.pc.toNat + 1 ≤ 4095 ∧ decodeWith s.params.secKey (nextWord s) = .ok i

/-- The cycle of `u` executes `i` (R30): PC advances, `i` runs, and both timers tick unless it faulted. -/
def cycleExecutes (u : State) (i : Instr) : Prop :=
  ∃ t, exec i { u with pc := u.pc + 2, loadOpen := false } = .next t ∧
    (t.status = .run → Machine.step u = .next
      { t with dt := if t.dt = 0 then 0 else t.dt - 1, st := if t.st = 0 then 0 else t.st - 1 }) ∧
    (t.status = .halted → Machine.step u = .next t)

/-- In memory `m` a cycle executes, at every PC that has two bytes in memory, the word that `byteAt` gives there, or halts
with DecodeFailure on that word (R42, R300, R303). -/
def cyclesExecute (m : Memory) (byteAt : Nat → Byte) : Prop :=
  ∀ (u : State) (w : Word), u.mem = m → u.status = .run → u.pc.toNat + 1 ≤ 4095 →
    w = wordOfBytes (byteAt u.pc.toNat) (byteAt (u.pc.toNat + 1)) →
    (∀ i, decodeWith u.params.secKey w = .ok i → fetches u i ∧ cycleExecutes u i) ∧
    (∀ e, decodeWith u.params.secKey w = .error e → Machine.step u = .next
      { u with status := .halted, fcause := .decodeFailure, fpc := u.pc, fop := w, loadOpen := false })

/-! ### The access table of R26 -/

/-- The columns of R26's table that an instruction can write, beside the registers. -/
inductive Resource where
  | index
  | programCounter
  | callStack
  | delayTimer
  | soundTimer
  | memory
  | screen
  /-- the model's own input fields (log 5) -/
  | randomInput
  deriving DecidableEq, Repr

/-- The `w` and `rw` entries of R26's table, beside the registers; PC's +2 at fetch is not shown there. -/
def instrWrites (i : Instr) : List Resource :=
  match i with
  | .cls | .drw _ _ _ => [.screen]
  | .ret | .call _ => [.programCounter, .callStack]
  | .jp _ | .jpV0 _ | .seByte _ _ | .sneByte _ _ | .seReg _ _ | .sneReg _ _ | .skp _ | .sknp _ | .ldVxK _ =>
    [.programCounter]
  | .ldI _ | .addI _ | .ldF _ => [.index]
  | .rnd _ _ => [.randomInput]
  | .ldDtVx _ => [.delayTimer]
  | .ldStVx _ => [.soundTimer]
  | .ldB _ | .storeRegs _ => [.memory]
  | .ldByte _ _ | .addByte _ _ | .ldReg _ _ | .orReg _ _ | .andReg _ _ | .xorReg _ _ | .addReg _ _ | .subReg _ _
  | .shr _ | .subnReg _ _ | .shl _ | .ldVxDt _ | .loadRegs _ => []

/-- The `w` and `rw` entries of R26's table in the register columns: the instruction may write `V[r]`. -/
def instrWritesReg (i : Instr) (r : Reg) : Bool :=
  match i with
  | .ldByte x _ | .addByte x _ | .ldReg x _ | .orReg x _ | .andReg x _ | .xorReg x _ | .rnd x _ | .ldVxDt x
  | .ldVxK x => r == x
  | .addReg x _ | .subReg x _ | .subnReg x _ | .shr x | .shl x => r == x || r == 15
  | .drw _ _ _ => r == 15
  | .loadRegs x => decide (r ≤ x)
  | .cls | .ret | .jp _ | .call _ | .seByte _ _ | .sneByte _ _ | .seReg _ _ | .sneReg _ _ | .ldI _ | .jpV0 _
  | .skp _ | .sknp _ | .ldDtVx _ | .ldStVx _ | .addI _ | .ldF _ | .ldB _ | .storeRegs _ => false

/-! ### Frames -/

/-- Every byte of memory reads as before. -/
def sameMemory (s t : State) : Prop := ∀ a, t.mem.read a = s.mem.read a

/-- Nothing but the register `x` changes: no other register, no other field, no byte of memory. -/
def changesOnlyReg (x : Reg) (s t : State) : Prop :=
  t = { s with v := t.v } ∧ (∀ r, r ≠ x → t.getV r = s.getV r) ∧ sameMemory s t

/-- Nothing but the registers `x` and VF changes. -/
def changesOnlyRegAndVf (x : Reg) (s t : State) : Prop :=
  t = { s with v := t.v } ∧ (∀ r, r ≠ x → r ≠ 15 → t.getV r = s.getV r) ∧ sameMemory s t

/-- Nothing but PC changes. -/
def changesOnlyPc (s t : State) : Prop := t = { s with pc := t.pc } ∧ sameMemory s t

/-- Nothing but I changes. -/
def changesOnlyIndex (s t : State) : Prop := t = { s with i := t.i } ∧ sameMemory s t

/-- Nothing but memory changes, and of memory only the `n` bytes from `a` on. -/
def changesOnlyMemory (a n : Nat) (s t : State) : Prop :=
  t = { s with mem := t.mem } ∧ ∀ b, ¬ (a ≤ b ∧ b < a + n) → t.mem.read b = s.mem.read b

/-- `t` is the state that a fault raised in the execute phase leaves (R303): HALTED, the record written with the fetch
address `PC - 2` and the word there, PC back at the fetch address, and nothing else changed. -/
def faultsWith (c : Cause) (s t : State) : Prop :=
  t.status = .halted ∧ t.fcause = c ∧ t.fpc = s.pc - 2 ∧
  t.fop = wordOfBytes (s.mem.read (s.pc - 2).toNat) (s.mem.read ((s.pc - 2).toNat + 1)) ∧ t.pc = s.pc - 2 ∧
  t = { s with status := t.status, fcause := t.fcause, fpc := t.fpc, fop := t.fop, pc := t.pc } ∧ sameMemory s t

/-! ### The parameter VF_ORDER -/

/-- The same machine with another VF_ORDER. -/
def State.withVfOrder (o : Config.VfOrder) (s : State) : State := { s with params := { s.params with vfOrder := o } }

/-- A flag-writing instruction (R11) that also names VF as an operand: the forms of 93_implementation_defined.md U3. -/
def namesVf (i : Instr) : Bool :=
  match i with
  | .addReg x y | .subReg x y | .subnReg x y | .drw x y _ => x == 15 || y == 15
  | .shr x | .shl x => x == 15
  | .cls | .ret | .jp _ | .call _ | .seByte _ _ | .sneByte _ _ | .seReg _ _ | .ldByte _ _ | .addByte _ _ | .ldReg _ _
  | .orReg _ _ | .andReg _ _ | .xorReg _ _ | .sneReg _ _ | .ldI _ | .jpV0 _ | .rnd _ _ | .skp _ | .sknp _ | .ldVxDt _
  | .ldVxK _ | .ldDtVx _ | .ldStVx _ | .addI _ | .ldF _ | .ldB _ | .storeRegs _ | .loadRegs _ => false

/-- A row of U3's table: its three columns, `sequential` with everything re-read. -/
def rowU3 (o : Config.VfOrder) (resultLast flagLast sequential : Nat) : Nat :=
  match o with
  | .resultLast => resultLast
  | .flagLast => flagLast
  | .sequential | .sequentialSumKept => sequential

/-- A row of U3's table for `ADD`, whose sum the `sequential` column need not re-read ("else as default"). -/
def sumRowU3 (o : Config.VfOrder) (resultLast flagLast sequential : Nat) : Nat :=
  match o with
  | .resultLast | .sequentialSumKept => resultLast
  | .flagLast => flagLast
  | .sequential => sequential

/-- The coordinate that `DRW` takes from register `r` (U3, last row): the register's value, but 0 where VF names it and
is cleared before it is read. -/
def drwCoordinate (s : State) (r : Reg) : Nat :=
  if r = 15 then rowU3 s.params.vfOrder (s.getV r).toNat (s.getV r).toNat 0 else (s.getV r).toNat

/-! ### Sprites -/

/-- The sprite with its top left bit at column `vx`, row `vy` has a set bit over column `px`, row `py` (R171, R173,
R175): bit 7 of each row byte is the leftmost column. -/
def spriteBit (vx vy : Nat) (rows : List Byte) (px py : Nat) : Bool :=
  decide (vx ≤ px) && decide (px < vx + 8) && decide (vy ≤ py) && decide (py < vy + rows.length) &&
    (rows.getD (py - vy) 0).getLsbD (7 - (px - vx))

end Sys2Proof.Machine
end

