-- ==== Sys2Proof/Certificates/Slice0/Obligations.lean ====
section
/-! DEFINITION. The statements for the provers, from the numbered rules of spec/. A statement that rests on a decision
of the spec (92_eei_decisions.md), on its general-knowledge passages or on a choice of the model says so in its docstring.
Frames are equations of records: `t = { s with v := t.v }` says that every field but `v` is that of `s`. -/

open Sys2Proof Sys2Proof.Machine

/-! ### Decoding -/

/-- The canonical word of every well-formed instruction decodes to it whatever SECKEY_0E is, and so do the two bytes
memory holds (30_encoding.md; the numbers are general knowledge, log 1). -/
def Obligations.DecodeInvertsEncode : Prop :=
  ∀ i : Instr, i.wf = true → decodesTo (encode i) i ∧ decodeBytes (encodeBytes i) = .ok i

/-- The decoder accepts a word exactly when a row of spec/opcode_table.json selects it, gives that row's instruction,
and a word is selected by one row at most; what it gives is well-formed (INDEX.md, "Notes on the machine-readable files"). -/
def Obligations.DecoderAcceptsExactlyTheTable : Prop :=
  ∀ w : Word,
    (∀ i, decodeWord w = .ok i → i.wf = true ∧ i.row ∈ opcodeTable ∧ i.row.selects w = true) ∧
    (∀ r, r ∈ opcodeTable → r.selects w = true → ∃ i, decodeWord w = .ok i ∧ i.row = r)

/-- The illegal words are those of R70's table, group by group, under the default SECKEY_0E (log 2). -/
def Obligations.IllegalWordsAreThoseOfTheTable : Prop :=
  ∀ w : Word, (∃ e, decodeWord w = .error e) ↔
    (w.toNat / 4096 = 0x0 ∧ w.toNat % 256 ∉ [0xE0, 0xEE]) ∨
    (w.toNat / 4096 = 0x8 ∧ w.toNat % 16 ∈ [0x8, 0x9, 0xA, 0xB, 0xC, 0xD, 0xF]) ∨
    (w.toNat / 4096 = 0xE ∧ w.toNat % 256 ∉ [0x9E, 0xA1]) ∨
    (w.toNat / 4096 = 0xF ∧ w.toNat % 256 ∉ [0x07, 0x0A, 0x15, 0x18, 0x1E, 0x29, 0x33, 0x55, 0x65])

/-- Bits that the decoder does not examine play no part (R69, derived there; log 3): `op[11:8]` in group 0, `op[3:0]`
in groups 5 and 9, `op[7:4]` in the shifts. -/
def Obligations.UnexaminedBitsPlayNoPart : Prop :=
  ∀ x y z : Reg,
    decodesTo (BitVec.ofNat 16 (0x00E0 + x.val * 256)) .cls ∧
    decodesTo (BitVec.ofNat 16 (0x00EE + x.val * 256)) .ret ∧
    decodesTo (BitVec.ofNat 16 (0x5000 + x.val * 256 + y.val * 16 + z.val)) (.seReg x y) ∧
    decodesTo (BitVec.ofNat 16 (0x9000 + x.val * 256 + y.val * 16 + z.val)) (.sneReg x y) ∧
    decodesTo (BitVec.ofNat 16 (0x8006 + x.val * 256 + z.val * 16)) (.shr x) ∧
    decodesTo (BitVec.ofNat 16 (0x800E + x.val * 256 + z.val * 16)) (.shl x)

/-- Under SECKEY_0E = low_nibble, groups 0 and E resolve on the low nibble (R65, R67), and every word legal under
low_byte stays legal with the same meaning (92_eei_decisions.md D3); the other groups do not look at the parameter. -/
def Obligations.LowNibbleKeyOnlyAddsWords : Prop :=
  (∀ w i, decodeWith .lowByte w = .ok i → decodeWith .lowNibble w = .ok i) ∧
  (∀ w : Word, w.toNat / 4096 ≠ 0x0 → w.toNat / 4096 ≠ 0xE → decodeWith .lowNibble w = decodeWith .lowByte w) ∧
  ∀ w : Word,
    (w.toNat / 4096 = 0x0 →
      (w.toNat % 16 = 0x0 → decodeWith .lowNibble w = .ok .cls) ∧
      (w.toNat % 16 = 0xE → decodeWith .lowNibble w = .ok .ret) ∧
      (w.toNat % 16 ≠ 0x0 → w.toNat % 16 ≠ 0xE → ∃ e, decodeWith .lowNibble w = .error e)) ∧
    (w.toNat / 4096 = 0xE →
      (w.toNat % 16 = 0xE → ∃ x : Reg, x.val = w.toNat / 256 % 16 ∧ decodeWith .lowNibble w = .ok (.skp x)) ∧
      (w.toNat % 16 = 0x1 → ∃ x : Reg, x.val = w.toNat / 256 % 16 ∧ decodeWith .lowNibble w = .ok (.sknp x)) ∧
      (w.toNat % 16 ≠ 0xE → w.toNat % 16 ≠ 0x1 → ∃ e, decodeWith .lowNibble w = .error e))

/-- Words written out from the spec's encodings (30_encoding.md R64 to R68; 95_test_vectors.md T01 to T09, S1, S3, S4b,
T30, T31, T45, T70, T76, T80), one or more of each family, and illegal ones. SECKEY_0E has its default (log 2): that
0x0000 is refused rests on it. -/
def Obligations.SampleWordsDecodeAsWritten : Prop :=
  decodeWord 0x00E0 = .ok .cls ∧ decodeWord 0x00EE = .ok .ret ∧ decodeWord 0x1ABC = .ok (.jp 0xABC) ∧
  decodeWord 0x3142 = .ok (.seByte 1 0x42) ∧ decodeWord 0x6102 = .ok (.ldByte 1 0x02) ∧
  decodeWord 0x8125 = .ok (.subReg 1 2) ∧ decodeWord 0x810E = .ok (.shl 1) ∧ decodeWord 0x8176 = .ok (.shr 1) ∧
  decodeWord 0xBABC = .ok (.jpV0 0xABC) ∧ decodeWord 0xC30F = .ok (.rnd 3 0x0F) ∧
  decodeWord 0xD12F = .ok (.drw 1 2 15) ∧ decodeWord 0xE19E = .ok (.skp 1) ∧ decodeWord 0xF215 = .ok (.ldDtVx 2) ∧
  decodeWord 0xF21E = .ok (.addI 2) ∧ decodeWord 0xF165 = .ok (.loadRegs 1) ∧
  decodeWord 0x0000 = .error (.group0 0x0000) ∧ decodeWord 0x8128 = .error (.group8 0x8128) ∧
  decodeWord 0xE19F = .error (.groupE 0xE19F) ∧ decodeWord 0xF175 = .error (.groupF 0xF175)

/-! ### The cycle -/

/-- The cycle (R30) under the machine's own SECKEY_0E (R6, R25): in HALTED nothing; a fetch past memory, a word that
does not decode; else the instruction runs with
PC advanced by 2, and the timers tick unless it faulted. `loadOpen` is the model's own field (log 21): a cycle that runs
closes it. That a fault leaves PC at the fetch address is the spec's decision D6. -/
def Obligations.StepRunsDecodedInstruction : Prop :=
  ∀ s : State,
    (s.status = .halted → step s = .next s) ∧
    (s.status = .run → s.pc.toNat + 1 > 4095 → step s = .next
      { s with status := .halted, fcause := .addressOutOfRange, fpc := s.pc, fop := 0x0000, loadOpen := false }) ∧
    (s.status = .run → s.pc.toNat + 1 ≤ 4095 → ∀ e, decodeWith s.params.secKey (nextWord s) = .error e → step s = .next
      { s with status := .halted, fcause := .decodeFailure, fpc := s.pc, fop := nextWord s, loadOpen := false }) ∧
    (∀ i, fetches s i → ∃ t, exec i { s with pc := s.pc + 2, loadOpen := false } = .next t ∧
      (t.status = .run → step s = .next
        { t with dt := if t.dt = 0 then 0 else t.dt - 1, st := if t.st = 0 then 0 else t.st - 1 }) ∧
      (t.status = .halted → step s = .next t))

/-- In HALTED any number of cycle requests changes nothing (R309, decision D14): the record keeps the first fault. -/
def Obligations.HaltedIsTerminal : Prop :=
  ∀ (n : Nat) (s : State), s.status = .halted → Sys2Proof.core.run n s = .next s

/-- Every cycle answers a next state: no fault of the model, no refusal, whatever the state (R303: the spec's faults
are themselves next states). -/
def Obligations.StepAlwaysAnswersNext : Prop := ∀ s : State, ∃ t, step s = .next t

/-- The five faults, their conditions, their order and what they leave (R303, R304, R307; decisions D5 to D9): a running
core halts exactly when a fault is due, with that record and nothing else changed, and otherwise stays running with
the record untouched. -/
def Obligations.CycleFaultsExactlyWhenDue : Prop :=
  ∀ s : State, s.status = .run →
    (∀ c w, dueFault s = some (c, w) → step s = .next
      { s with status := .halted, fcause := c, fpc := s.pc, fop := w, loadOpen := false }) ∧
    (dueFault s = none → ∃ t, step s = .next t ∧ t.status = .run ∧ t.fcause = s.fcause ∧ t.fpc = s.fpc ∧
      t.fop = s.fop ∧ t.key = s.key ∧ t.params = s.params)

/-- A fault of the execute phase (R303, decision D6): whatever state an instruction is executed in, when its check fails it
is abandoned with none of its effects. -/
def Obligations.ExecuteFaultsArePrecise : Prop :=
  ∀ (i : Instr) (s : State) (c : Cause), executeFault i s = some c → ∃ t, exec i s = .next t ∧ faultsWith c s t

/-! ### The invariant -/

/-- The invariant holds at reset, in every configuration. -/
def Obligations.InvariantHoldsAtReset : Prop := State.reset.Inv ∧ ∀ p : Config.Params, (State.resetWith p).Inv

/-- Every step keeps the invariant: canonical memory, the bounds on PC (R12) and on the stack entries, no record while
running, a record that the wreck still explains, and `load` open only in the reset state. -/
def Obligations.EveryStepKeepsInvariant : Prop :=
  ∀ s t : State, s.Inv → step s = .next t → t.Inv

/-- Every host operation keeps the invariant (R32). -/
def Obligations.EveryHostOperationKeepsInvariant : Prop :=
  ∀ (op : HostOp) (s t : State), s.Inv → hostStep op s = .next t → t.Inv

/-- Every state that the host and the core reach from reset meets the invariant, and its next cycle is answered. -/
def Obligations.ReachableStatesMeetInvariant : Prop :=
  ∀ s : State, Reachable s → s.Inv ∧ ∃ t, step s = .next t ∧ Reachable t

/-! ### Whole-machine rules -/

/-- The access table of R26 (derived there from the instruction rules) and the frame rule R34 (decision D25): an instruction
that does not fault completes, and writes nothing but what its row of the table names. -/
def Obligations.InstructionsWriteOnlyTheirTableRow : Prop :=
  ∀ (i : Instr) (s : State), executeFault i s = none →
    ∃ t, exec i s = .next t ∧
      (∀ r, instrWritesReg i r = false → t.getV r = s.getV r) ∧
      (.index ∉ instrWrites i → t.i = s.i) ∧
      (.programCounter ∉ instrWrites i → t.pc = s.pc) ∧
      (.callStack ∉ instrWrites i → t.sp = s.sp ∧ t.stack = s.stack) ∧
      (.delayTimer ∉ instrWrites i → t.dt = s.dt) ∧
      (.soundTimer ∉ instrWrites i → t.st = s.st) ∧
      (.memory ∉ instrWrites i → sameMemory s t) ∧
      (.screen ∉ instrWrites i → t.screen = s.screen) ∧
      (.randomInput ∉ instrWrites i → t.rndIn = s.rndIn ∧ t.rndDraws = s.rndDraws) ∧
      t.key = s.key ∧ t.status = s.status ∧ t.fcause = s.fcause ∧ t.fpc = s.fpc ∧ t.fop = s.fop ∧
      t.loadOpen = s.loadOpen ∧ t.params = s.params

/-- "a flag write stores the full byte 0x00 or 0x01, not one bit" (R11): after each of the six flag-writing instructions VF
is 0 or 1, where the result does not overwrite it (R33, decision D10). -/
def Obligations.FlagIsZeroOrOne : Prop :=
  ∀ (i : Instr) (s t : State), executeFault i s = none → exec i s = .next t →
    ((∃ x y, x ≠ 15 ∧ (i = .addReg x y ∨ i = .subReg x y ∨ i = .subnReg x y ∨ i = .shr x ∨ i = .shl x)) ∨
      ∃ x y n, i = .drw x y n) →
    t.getV 15 = 0x00 ∨ t.getV 15 = 0x01

/-- The timer decrement unit (R320): in every cycle that completes without a fault each timer ends one below the value
the instruction left (0 stays 0); not in a faulting cycle, not in HALTED; both 0 at reset. -/
def Obligations.TimersTickOncePerCompletedCycle : Prop :=
  (∀ (s : State) (i : Instr), fetches s i → dueFault s = none →
    ∃ t, step s = .next t ∧
      t.dt.toNat = (match i with | .ldDtVx x => s.getV x | _ => s.dt).toNat - 1 ∧
      t.st.toNat = (match i with | .ldStVx x => s.getV x | _ => s.st).toNat - 1) ∧
  (∀ s : State, (s.status = .halted ∨ dueFault s ≠ none) →
    ∃ t, step s = .next t ∧ t.dt = s.dt ∧ t.st = s.st) ∧
  State.reset.dt = 0 ∧ State.reset.st = 0

/-- No instruction reads the sound timer (R17): two states that differ in ST alone step to states that differ in ST
alone. -/
def Obligations.SoundTimerIsNeverRead : Prop :=
  ∀ (s : State) (b : Byte), ∃ t t', step s = .next t ∧ step { s with st := b } = .next t' ∧ t' = { t with st := t'.st }

/-- "no instruction can read a pixel into a register" (R23): two states that differ in SCREEN alone step to states that
differ in SCREEN, and in VF when the instruction is `DRW`, and in nothing else. -/
def Obligations.ScreenReachesOnlyTheCollisionFlag : Prop :=
  ∀ (s : State) (sc : Screen), ∃ t t', step s = .next t ∧ step { s with screen := sc } = .next t' ∧
    t' = { t with screen := t'.screen, v := t'.v } ∧ (∀ r, r ≠ 15 → t'.getV r = t.getV r) ∧
    ((∀ x y n, ¬ fetches s (.drw x y n)) → t'.v = t.v)

/-- The random input is sampled by `RND` only and ignored in every other cycle (R161, decision D13; the fields rndIn and
rndDraws are the model's, log 5): two states that differ in it alone step to states that differ, beside it, at most in
the destination register of an `RND`. -/
def Obligations.RandomInputReachesOnlyTheRndDestination : Prop :=
  ∀ (s : State) (bs : List Byte) (k : Nat), ∃ t t', step s = .next t ∧
    step { s with rndIn := bs, rndDraws := k } = .next t' ∧
    t' = { t with v := t'.v, rndIn := t'.rndIn, rndDraws := t'.rndDraws } ∧
    (∀ r, (∀ kk, ¬ fetches s (.rnd r kk)) → t'.getV r = t.getV r) ∧
    ((∀ x kk, ¬ fetches s (.rnd x kk)) → t'.rndIn = bs ∧ t'.rndDraws = k)

/-- The keypad is read by `SKP`, `SKNP` and `LD Vx,K` only (R22): in any other cycle two states that differ in KEY
alone step to states that differ in KEY alone; and no cycle writes it. -/
def Obligations.KeypadReadOnlyByKeyInstructions : Prop :=
  ∀ (s : State) (k : Keypad), ∃ t t', step s = .next t ∧ step { s with key := k } = .next t' ∧ t.key = s.key ∧ t'.key = k ∧
    ((∀ x, ¬ fetches s (.skp x) ∧ ¬ fetches s (.sknp x) ∧ ¬ fetches s (.ldVxK x)) → t' = { t with key := k })

/-- A jump to itself (R35) and a key wait with no key pressed (R182) run forever: after any number of cycles the core is
still running and only the timers have gone down (derived there from R30; `loadOpen` is the model's own field). -/
def Obligations.IdleLoopsChangeOnlyTheTimers : Prop :=
  ∀ (s : State) (n : Nat),
    ((∃ nnn : Addr12, fetches s (.jp nnn) ∧ nnn.toNat = s.pc.toNat) ∨
      (∃ x, fetches s (.ldVxK x) ∧ ∀ j : Fin 16, s.key[j] = false)) →
    safeFor n s ∧ ∃ t, Sys2Proof.core.run n s = .next t ∧
      t = { s with dt := t.dt, st := t.st, loadOpen := t.loadOpen } ∧
      t.dt.toNat = s.dt.toNat - n ∧ t.st.toNat = s.st.toNat - n

/-- A store is seen by the very next fetch (R52, derived there), for both instructions that store: after `LD [I],Vx` and
after `LD B,Vx` a cycle executes, at whatever PC, the word that the stored bytes and the bytes around them make, or takes
DecodeFailure on it. -/
def Obligations.StoredWordIsFetched : Prop :=
  ∀ (x : Reg) (s : State),
    (s.i.toNat + x.val ≤ 4095 → ∃ t, exec (.storeRegs x) s = .next t ∧
      cyclesExecute t.mem fun a =>
        if s.i.toNat ≤ a ∧ a ≤ s.i.toNat + x.val then s.getV (Fin.ofNat 16 (a - s.i.toNat)) else s.mem.read a) ∧
    (s.i.toNat + 2 ≤ 4095 → ∃ t, exec (.ldB x) s = .next t ∧
      cyclesExecute t.mem fun a =>
        if a = s.i.toNat then BitVec.ofNat 8 ((s.getV x).toNat / 100)
        else if a = s.i.toNat + 1 then BitVec.ofNat 8 ((s.getV x).toNat / 10 % 10)
        else if a = s.i.toNat + 2 then BitVec.ofNat 8 ((s.getV x).toNat % 10)
        else s.mem.read a)

/-! ### Control flow (40_control_flow.md) -/

/-- R100. -/
def Obligations.JpSetsPc : Prop :=
  ∀ (nnn : Addr12) (s : State),
    decodesTo (BitVec.ofNat 16 (0x1000 + nnn.toNat)) (.jp nnn) ∧
    ∃ t, exec (.jp nnn) s = .next t ∧ t.pc.toNat = nnn.toNat ∧ changesOnlyPc s t

/-- R101, with StackOverflow (decision D8): the entry at SP takes the advanced PC, the other entries stay. -/
def Obligations.CallPushesReturnAddress : Prop :=
  ∀ (nnn : Addr12) (s : State),
    decodesTo (BitVec.ofNat 16 (0x2000 + nnn.toNat)) (.call nnn) ∧
    (s.sp.val < 16 → ∃ t, exec (.call nnn) s = .next t ∧ t.pc.toNat = nnn.toNat ∧ t.sp.val = s.sp.val + 1 ∧
      (∀ k : Fin 16, t.stack[k] = if k.val = s.sp.val then s.pc else s.stack[k]) ∧
      t = { s with pc := t.pc, sp := t.sp, stack := t.stack } ∧ sameMemory s t) ∧
    (s.sp.val = 16 → ∃ t, exec (.call nnn) s = .next t ∧ faultsWith .stackOverflow s t)

/-- R102, with StackUnderflow (decision D8): PC takes the entry under SP, which is not erased (R15). -/
def Obligations.RetPopsReturnAddress : Prop :=
  ∀ s : State,
    decodesTo 0x00EE .ret ∧
    (∀ k : Fin 16, s.sp.val = k.val + 1 → ∃ t, exec .ret s = .next t ∧ t.sp.val = k.val ∧ t.pc = s.stack[k] ∧
      t = { s with pc := t.pc, sp := t.sp } ∧ sameMemory s t) ∧
    (s.sp.val = 0 → ∃ t, exec .ret s = .next t ∧ faultsWith .stackUnderflow s t)

/-- N calls and then N returns, for any targets and any depth the stack has room for, come back to the PC and the SP
before the first call, with every entry below SP as it was (R102, the source's property). -/
def Obligations.NestedCallsUnwind : Prop :=
  ∀ (targets : List Addr12) (s : State), s.sp.val + targets.length ≤ 16 →
    ∃ t, execAll (targets.map .call ++ List.replicate targets.length .ret) s = .next t ∧
      t.pc = s.pc ∧ t.sp = s.sp ∧ (∀ k : Fin 16, k.val < s.sp.val → t.stack[k] = s.stack[k]) ∧
      t = { s with stack := t.stack }

/-- R103 and R104: skip two more bytes on equal, on unequal; additions to PC are modulo 2^16. -/
def Obligations.SkipOnByte : Prop :=
  ∀ (x : Reg) (kk : Byte) (s : State),
    decodesTo (BitVec.ofNat 16 (0x3000 + x.val * 256 + kk.toNat)) (.seByte x kk) ∧
    decodesTo (BitVec.ofNat 16 (0x4000 + x.val * 256 + kk.toNat)) (.sneByte x kk) ∧
    (∃ t, exec (.seByte x kk) s = .next t ∧ changesOnlyPc s t ∧
      t.pc.toNat = (if s.getV x = kk then s.pc.toNat + 2 else s.pc.toNat) % 65536) ∧
    (∃ t, exec (.sneByte x kk) s = .next t ∧ changesOnlyPc s t ∧
      t.pc.toNat = (if s.getV x = kk then s.pc.toNat else s.pc.toNat + 2) % 65536)

/-- R105 and R106; that the low nibble plays no part is decision D4 (R69, derived there; log 3). -/
def Obligations.SkipOnRegister : Prop :=
  ∀ (x y z : Reg) (s : State),
    decodesTo (BitVec.ofNat 16 (0x5000 + x.val * 256 + y.val * 16 + z.val)) (.seReg x y) ∧
    decodesTo (BitVec.ofNat 16 (0x9000 + x.val * 256 + y.val * 16 + z.val)) (.sneReg x y) ∧
    (∃ t, exec (.seReg x y) s = .next t ∧ changesOnlyPc s t ∧
      t.pc.toNat = (if s.getV x = s.getV y then s.pc.toNat + 2 else s.pc.toNat) % 65536) ∧
    (∃ t, exec (.sneReg x y) s = .next t ∧ changesOnlyPc s t ∧
      t.pc.toNat = (if s.getV x = s.getV y then s.pc.toNat else s.pc.toNat + 2) % 65536)

/-- R107: the sum is not reduced modulo 4096; a sum of 0xFFF or more faults at the next fetch (derived there from R12
and R43, decision D7). -/
def Obligations.JpV0AddsV0 : Prop :=
  ∀ (nnn : Addr12) (s : State),
    decodesTo (BitVec.ofNat 16 (0xB000 + nnn.toNat)) (.jpV0 nnn) ∧
    ∃ t, exec (.jpV0 nnn) s = .next t ∧ t.pc.toNat = (s.getV 0).toNat + nnn.toNat ∧ changesOnlyPc s t ∧
      (t.status = .run → (s.getV 0).toNat + nnn.toNat ≥ 0xFFF → ∃ u, step t = .next u ∧ u.status = .halted ∧
        u.fcause.code = 2 ∧ u.fpc = t.pc ∧ u.fop = 0x0000 ∧ u.pc = t.pc)

/-! ### Moves, arithmetic, logic, shifts (41_moves.md, 42_arithmetic_logic.md, 43_shifts.md) -/

/-- R110 and R111. -/
def Obligations.MovesOverwrite : Prop :=
  ∀ (x y : Reg) (kk : Byte) (s : State),
    decodesTo (BitVec.ofNat 16 (0x6000 + x.val * 256 + kk.toNat)) (.ldByte x kk) ∧
    decodesTo (BitVec.ofNat 16 (0x8000 + x.val * 256 + y.val * 16)) (.ldReg x y) ∧
    (∃ t, exec (.ldByte x kk) s = .next t ∧ t.getV x = kk ∧ changesOnlyReg x s t) ∧
    (∃ t, exec (.ldReg x y) s = .next t ∧ t.getV x = s.getV y ∧ changesOnlyReg x s t)

/-- R120: wraps modulo 256 with no flag (VF changes only as the destination). -/
def Obligations.AddByteWrapsWithoutFlag : Prop :=
  ∀ (x : Reg) (kk : Byte) (s : State),
    decodesTo (BitVec.ofNat 16 (0x7000 + x.val * 256 + kk.toNat)) (.addByte x kk) ∧
    ∃ t, exec (.addByte x kk) s = .next t ∧ (t.getV x).toNat = ((s.getV x).toNat + kk.toNat) % 256 ∧
      changesOnlyReg x s t

/-- R121: carry and wrapped sum. In the order of R33 (decision D10, the default of VF_ORDER; log 4) the result also for
`x = 15`, where it remains in VF, and `y = 15`; the other orders' results there are in VfOrdersDifferOnlyAtVf. -/
def Obligations.AddRegSetsCarry : Prop :=
  ∀ (x y : Reg) (s : State),
    decodesTo (BitVec.ofNat 16 (0x8004 + x.val * 256 + y.val * 16)) (.addReg x y) ∧
    ∃ t, exec (.addReg x y) s = .next t ∧
      ((x ≠ 15 ∧ y ≠ 15) ∨ s.params.vfOrder = .resultLast →
        (t.getV x).toNat = ((s.getV x).toNat + (s.getV y).toNat) % 256) ∧
      (x ≠ 15 → (t.getV 15).toNat = if (s.getV x).toNat + (s.getV y).toNat > 255 then 1 else 0) ∧
      changesOnlyRegAndVf x s t

/-- R122: VF = 1 exactly when there is no borrow; the result at VF as in AddRegSetsCarry. -/
def Obligations.SubRegSetsNoBorrow : Prop :=
  ∀ (x y : Reg) (s : State),
    decodesTo (BitVec.ofNat 16 (0x8005 + x.val * 256 + y.val * 16)) (.subReg x y) ∧
    ∃ t, exec (.subReg x y) s = .next t ∧
      ((x ≠ 15 ∧ y ≠ 15) ∨ s.params.vfOrder = .resultLast →
        ((t.getV x).toNat : Int) = ((s.getV x).toNat - (s.getV y).toNat : Int) % 256) ∧
      (x ≠ 15 → (t.getV 15).toNat = if (s.getV x).toNat ≥ (s.getV y).toNat then 1 else 0) ∧
      changesOnlyRegAndVf x s t

/-- R123: operands reversed, VF = 1 exactly when Vy is STRICTLY greater (90_conflicts.md C6); the result at VF as in
AddRegSetsCarry. -/
def Obligations.SubnRegSetsStrictlyGreater : Prop :=
  ∀ (x y : Reg) (s : State),
    decodesTo (BitVec.ofNat 16 (0x8007 + x.val * 256 + y.val * 16)) (.subnReg x y) ∧
    ∃ t, exec (.subnReg x y) s = .next t ∧
      ((x ≠ 15 ∧ y ≠ 15) ∨ s.params.vfOrder = .resultLast →
        ((t.getV x).toNat : Int) = ((s.getV y).toNat - (s.getV x).toNat : Int) % 256) ∧
      (x ≠ 15 → (t.getV 15).toNat = if (s.getV y).toNat > (s.getV x).toNat then 1 else 0) ∧
      changesOnlyRegAndVf x s t

/-- R124, R125, R126: bit by bit, no flag change. -/
def Obligations.LogicIsBitwise : Prop :=
  ∀ (x y : Reg) (s : State),
    decodesTo (BitVec.ofNat 16 (0x8001 + x.val * 256 + y.val * 16)) (.orReg x y) ∧
    decodesTo (BitVec.ofNat 16 (0x8002 + x.val * 256 + y.val * 16)) (.andReg x y) ∧
    decodesTo (BitVec.ofNat 16 (0x8003 + x.val * 256 + y.val * 16)) (.xorReg x y) ∧
    (∃ t, exec (.orReg x y) s = .next t ∧ changesOnlyReg x s t ∧
      ∀ j, (t.getV x).getLsbD j = ((s.getV x).getLsbD j || (s.getV y).getLsbD j)) ∧
    (∃ t, exec (.andReg x y) s = .next t ∧ changesOnlyReg x s t ∧
      ∀ j, (t.getV x).getLsbD j = ((s.getV x).getLsbD j && (s.getV y).getLsbD j)) ∧
    (∃ t, exec (.xorReg x y) s = .next t ∧ changesOnlyReg x s t ∧
      ∀ j, (t.getV x).getLsbD j = ((s.getV x).getLsbD j ^^ (s.getV y).getLsbD j))

/-- R140, R141: the bit shifted out into VF, zero in. In the order of R33 (decision D10, the default; log 4) the result
remains for `x = 15`; the other orders' results there are in VfOrdersDifferOnlyAtVf. -/
def Obligations.ShiftsSetTheBitShiftedOut : Prop :=
  ∀ (x y : Reg) (s : State),
    decodesTo (BitVec.ofNat 16 (0x8006 + x.val * 256 + y.val * 16)) (.shr x) ∧
    decodesTo (BitVec.ofNat 16 (0x800E + x.val * 256 + y.val * 16)) (.shl x) ∧
    (∃ t, exec (.shr x) s = .next t ∧
      (x ≠ 15 ∨ s.params.vfOrder = .resultLast → (t.getV x).toNat = (s.getV x).toNat / 2) ∧
      (x ≠ 15 → (t.getV 15).toNat = (s.getV x).toNat % 2) ∧ changesOnlyRegAndVf x s t) ∧
    (∃ t, exec (.shl x) s = .next t ∧
      (x ≠ 15 ∨ s.params.vfOrder = .resultLast → (t.getV x).toNat = (s.getV x).toNat * 2 % 256) ∧
      (x ≠ 15 → (t.getV 15).toNat = (s.getV x).toNat / 128) ∧ changesOnlyRegAndVf x s t)

/-- R33 and the table of 93_implementation_defined.md U3. VF_ORDER reaches only the flag-writing instructions that name
VF: any other instruction does the same in every order. For those that name VF the register rows of U3, each with its
three columns: `rowU3` and, for `ADD`, `sumRowU3` pick the column of the machine's order. Where `ADD`, `SUB`, `SUBN`
name VF twice, the re-read other operand is the flag too (log 4). The `DRW` row is in DrwFlipsCoveredCells. -/
def Obligations.VfOrdersDifferOnlyAtVf : Prop :=
  (∀ (o : Config.VfOrder) (i : Instr) (s : State), namesVf i = false →
    ∃ t, exec i s = .next t ∧ exec i (s.withVfOrder o) = .next (t.withVfOrder o)) ∧
  (∀ (y : Reg) (s : State) (f v : Nat), f = (s.getV 15).toNat → v = (s.getV y).toNat →
    (∀ c : Nat, c = (if f + v > 255 then 1 else 0) → ∃ t, exec (.addReg 15 y) s = .next t ∧
      (t.getV 15).toNat = sumRowU3 s.params.vfOrder ((f + v) % 256) c ((c + if y = 15 then c else v) % 256)) ∧
    (∀ c : Nat, c = (if f ≥ v then 1 else 0) → ∃ t, exec (.subReg 15 y) s = .next t ∧
      (t.getV 15).toNat =
        rowU3 s.params.vfOrder ((256 + f - v) % 256) c ((256 + c - if y = 15 then c else v) % 256)) ∧
    (∀ c : Nat, c = (if v > f then 1 else 0) → ∃ t, exec (.subnReg 15 y) s = .next t ∧
      (t.getV 15).toNat =
        rowU3 s.params.vfOrder ((256 + v - f) % 256) c ((256 + (if y = 15 then c else v) - c) % 256)) ∧
    (∃ t, exec (.shr 15) s = .next t ∧ (t.getV 15).toNat = rowU3 s.params.vfOrder (f / 2) (f % 2) 0) ∧
    (∃ t, exec (.shl 15) s = .next t ∧
      (t.getV 15).toNat = rowU3 s.params.vfOrder (f * 2 % 256) (f / 128) (f / 128 * 2))) ∧
  (∀ (x : Reg) (s : State) (f v : Nat), x ≠ 15 → f = (s.getV 15).toNat → v = (s.getV x).toNat →
    (∀ c : Nat, c = (if v ≥ f then 1 else 0) → ∃ t, exec (.subReg x 15) s = .next t ∧ (t.getV 15).toNat = c ∧
      (t.getV x).toNat =
        rowU3 s.params.vfOrder ((256 + v - f) % 256) ((256 + v - f) % 256) ((256 + v - c) % 256)) ∧
    (∀ c : Nat, c = (if f > v then 1 else 0) → ∃ t, exec (.subnReg x 15) s = .next t ∧ (t.getV 15).toNat = c ∧
      (t.getV x).toNat =
        rowU3 s.params.vfOrder ((256 + f - v) % 256) ((256 + f - v) % 256) ((256 + c - v) % 256)) ∧
    (∀ c : Nat, c = (if v + f > 255 then 1 else 0) → ∃ t, exec (.addReg x 15) s = .next t ∧ (t.getV 15).toNat = c ∧
      (t.getV x).toNat = sumRowU3 s.params.vfOrder ((v + f) % 256) ((v + f) % 256) ((v + c) % 256)))

/-! ### Index register, random (44_index.md, 45_random.md, 49_font_bcd_block.md) -/

/-- R150 and R151: `LD I,addr` sets I, `ADD I,Vx` adds modulo 65536 with no flag. -/
def Obligations.IndexLoadsAndAdds : Prop :=
  ∀ (nnn : Addr12) (x : Reg) (s : State),
    decodesTo (BitVec.ofNat 16 (0xA000 + nnn.toNat)) (.ldI nnn) ∧
    decodesTo (BitVec.ofNat 16 (0xF01E + x.val * 256)) (.addI x) ∧
    (∃ t, exec (.ldI nnn) s = .next t ∧ t.i.toNat = nnn.toNat ∧ changesOnlyIndex s t) ∧
    (∃ t, exec (.addI x) s = .next t ∧ t.i.toNat = (s.i.toNat + (s.getV x).toNat) % 65536 ∧ changesOnlyIndex s t)

/-- R200: the glyph of the low nibble, five bytes each from 0x050 (90_conflicts.md C8: 0x0082 for 0xA). -/
def Obligations.FontPointerPointsAtGlyph : Prop :=
  ∀ (x : Reg) (s : State),
    decodesTo (BitVec.ofNat 16 (0xF029 + x.val * 256)) (.ldF x) ∧
    ∃ t, exec (.ldF x) s = .next t ∧ t.i.toNat = 0x050 + (s.getV x).toNat % 16 * 5 ∧ changesOnlyIndex s t

/-- R160: the destination takes the presented byte AND the immediate, whichever byte the host has put on the input;
where it has put none, a free byte that no statement knows (R161; the two input fields are the model's, log 5). -/
def Obligations.RndMasksThePresentedByte : Prop :=
  ∀ (x : Reg) (kk : Byte) (s : State),
    decodesTo (BitVec.ofNat 16 (0xC000 + x.val * 256 + kk.toNat)) (.rnd x kk) ∧
    (∀ b bs, s.rndIn = b :: bs → ∃ t, exec (.rnd x kk) s = .next t ∧
      (∀ j, (t.getV x).getLsbD j = (b.getLsbD j && kk.getLsbD j)) ∧ (∀ r, r ≠ x → t.getV r = s.getV r) ∧
      t = { s with v := t.v, rndIn := bs } ∧ sameMemory s t) ∧
    (s.rndIn = [] → ∃ t, exec (.rnd x kk) s = .next t ∧
      (∀ j, (t.getV x).getLsbD j = ((Config.rndByte s.rndDraws).getLsbD j && kk.getLsbD j)) ∧
      (∀ r, r ≠ x → t.getV r = s.getV r) ∧ t = { s with v := t.v, rndDraws := s.rndDraws + 1 } ∧ sameMemory s t)

/-! ### Display (46_display.md) -/

/-- R170 (the effect is general knowledge, K5): all cells 0, nothing else, VF included. -/
def Obligations.ClsClearsTheScreen : Prop :=
  ∀ s : State,
    decodesTo 0x00E0 .cls ∧
    ∃ t, exec .cls s = .next t ∧ (∀ (px : Fin 64) (py : Fin 32), t.screen[py][px] = false) ∧
      t = { s with screen := t.screen } ∧ sameMemory s t

/-- R171 to R175 (decisions D10, D11, D22; bit order K4): every cell of the screen under a set bit of the sprite is
flipped and no other, whatever falls outside is dropped, VF = 1 exactly when a flipped cell was set. The rows are the
`n` bytes from I on; `n = 0` reads none. The coordinates are the registers' values, but 0 for VF in the orders that clear
it first (`drwCoordinate`; 93_implementation_defined.md U3, last row; log 4). -/
def Obligations.DrwFlipsCoveredCells : Prop :=
  ∀ (x y : Reg) (n : Nat) (s : State), (n = 0 ∨ s.i.toNat + n - 1 ≤ 4095) →
    ∃ t, exec (.drw x y n) s = .next t ∧
      (∀ (px : Fin 64) (py : Fin 32), t.screen[py][px] =
        (s.screen[py][px] ^^ spriteBit (drwCoordinate s x) (drwCoordinate s y)
          ((List.range n).map fun k => s.mem.read (s.i.toNat + k)) px.val py.val)) ∧
      (t.getV 15).toNat = (if ∃ (px : Fin 64) (py : Fin 32), s.screen[py][px] = true ∧
        spriteBit (drwCoordinate s x) (drwCoordinate s y)
          ((List.range n).map fun k => s.mem.read (s.i.toNat + k)) px.val py.val = true then 1 else 0) ∧
      (∀ r, r ≠ 15 → t.getV r = s.getV r) ∧ t = { s with v := t.v, screen := t.screen } ∧ sameMemory s t

/-- R171: drawing the same sprite twice at the same place restores the screen. The coordinates are not taken from
VF, which the first draw overwrites. -/
def Obligations.DrwTwiceRestoresTheScreen : Prop :=
  ∀ (x y : Reg) (n : Nat) (s : State), x ≠ 15 → y ≠ 15 → (n = 0 ∨ s.i.toNat + n - 1 ≤ 4095) →
    ∃ t u, exec (.drw x y n) s = .next t ∧ exec (.drw x y n) t = .next u ∧ u.screen = s.screen ∧
      (∀ r, r ≠ 15 → u.getV r = s.getV r) ∧ u = { s with v := u.v }

/-- R45, R171 (decision D7): a sprite that would be read past 0xFFF faults before any effect; the word of `DRW`. -/
def Obligations.DrwFaultsPastMemory : Prop :=
  ∀ (x y : Reg) (n : Nat) (s : State),
    (n ≤ 15 → decodesTo (BitVec.ofNat 16 (0xD000 + x.val * 256 + y.val * 16 + n)) (.drw x y n)) ∧
    (n ≥ 1 → s.i.toNat + n - 1 > 4095 → ∃ t, exec (.drw x y n) s = .next t ∧ faultsWith .addressOutOfRange s t)

/-! ### Keypad (47_keypad.md) -/

/-- R180, R181, R183 (decision D9): the key numbered by the register's value, and the fault above 15. -/
def Obligations.KeySkips : Prop :=
  ∀ (x : Reg) (s : State),
    decodesTo (BitVec.ofNat 16 (0xE09E + x.val * 256)) (.skp x) ∧
    decodesTo (BitVec.ofNat 16 (0xE0A1 + x.val * 256)) (.sknp x) ∧
    (∀ k : Fin 16, (s.getV x).toNat = k.val →
      (∃ t, exec (.skp x) s = .next t ∧ changesOnlyPc s t ∧
        t.pc.toNat = (if s.key[k] = true then s.pc.toNat + 2 else s.pc.toNat) % 65536) ∧
      (∃ t, exec (.sknp x) s = .next t ∧ changesOnlyPc s t ∧
        t.pc.toNat = (if s.key[k] = true then s.pc.toNat else s.pc.toNat + 2) % 65536)) ∧
    ((s.getV x).toNat > 15 →
      (∃ t, exec (.skp x) s = .next t ∧ faultsWith .keyIndexOutOfRange s t) ∧
      (∃ t, exec (.sknp x) s = .next t ∧ faultsWith .keyIndexOutOfRange s t))

/-- R182: the least pressed key, or PC back by 2 and nothing else. -/
def Obligations.KeyWaitTakesTheLeastKey : Prop :=
  ∀ (x : Reg) (s : State),
    decodesTo (BitVec.ofNat 16 (0xF00A + x.val * 256)) (.ldVxK x) ∧
    (∀ k : Fin 16, s.key[k] = true → (∀ j : Fin 16, j < k → s.key[j] = false) →
      ∃ t, exec (.ldVxK x) s = .next t ∧ (t.getV x).toNat = k.val ∧ changesOnlyReg x s t) ∧
    ((∀ k : Fin 16, s.key[k] = false) →
      ∃ t, exec (.ldVxK x) s = .next t ∧ t.pc + 2 = s.pc ∧ changesOnlyPc s t)

/-! ### Timers (48_timer_moves.md) -/

/-- R190, R191, R192, with the tick of the same cycle: what the instruction does, and what its whole cycle leaves. -/
def Obligations.TimerMoves : Prop :=
  ∀ (x : Reg) (s : State),
    decodesTo (BitVec.ofNat 16 (0xF007 + x.val * 256)) (.ldVxDt x) ∧
    decodesTo (BitVec.ofNat 16 (0xF015 + x.val * 256)) (.ldDtVx x) ∧
    decodesTo (BitVec.ofNat 16 (0xF018 + x.val * 256)) (.ldStVx x) ∧
    (∃ t, exec (.ldVxDt x) s = .next t ∧ t.getV x = s.dt ∧ changesOnlyReg x s t) ∧
    (∃ t, exec (.ldDtVx x) s = .next t ∧ t.dt = s.getV x ∧ t = { s with dt := t.dt } ∧ sameMemory s t) ∧
    (∃ t, exec (.ldStVx x) s = .next t ∧ t.st = s.getV x ∧ t = { s with st := t.st } ∧ sameMemory s t) ∧
    (fetches s (.ldVxDt x) → ∃ t, step s = .next t ∧ t.getV x = s.dt ∧ t.dt.toNat = s.dt.toNat - 1 ∧
      t.st.toNat = s.st.toNat - 1) ∧
    (fetches s (.ldDtVx x) → ∃ t, step s = .next t ∧ t.dt.toNat = (s.getV x).toNat - 1 ∧
      t.st.toNat = s.st.toNat - 1) ∧
    (fetches s (.ldStVx x) → ∃ t, step s = .next t ∧ t.st.toNat = (s.getV x).toNat - 1 ∧
      t.dt.toNat = s.dt.toNat - 1)

/-! ### BCD and block transfer (49_font_bcd_block.md) -/

/-- R201, R202, with the range fault (decision D7): three digits at I, I + 1, I + 2, each 0 to 9, that make up the
value; no other byte, and I unchanged. -/
def Obligations.BcdStoresThreeDigits : Prop :=
  ∀ (x : Reg) (s : State),
    decodesTo (BitVec.ofNat 16 (0xF033 + x.val * 256)) (.ldB x) ∧
    (s.i.toNat + 2 ≤ 4095 → ∃ t, exec (.ldB x) s = .next t ∧
      (t.mem.read s.i.toNat).toNat = (s.getV x).toNat / 100 ∧
      (t.mem.read (s.i.toNat + 1)).toNat = (s.getV x).toNat / 10 % 10 ∧
      (t.mem.read (s.i.toNat + 2)).toNat = (s.getV x).toNat % 10 ∧
      changesOnlyMemory s.i.toNat 3 s t) ∧
    (s.i.toNat + 2 > 4095 → ∃ t, exec (.ldB x) s = .next t ∧ faultsWith .addressOutOfRange s t)

/-- R203, R202, with the range fault (decision D7): V[0] to V[x] at I to I + x, no other byte, and I unchanged. -/
def Obligations.StoreRegsStoresTheRun : Prop :=
  ∀ (x : Reg) (s : State),
    decodesTo (BitVec.ofNat 16 (0xF055 + x.val * 256)) (.storeRegs x) ∧
    (s.i.toNat + x.val ≤ 4095 → ∃ t, exec (.storeRegs x) s = .next t ∧
      (∀ k : Reg, k ≤ x → t.mem.read (s.i.toNat + k.val) = s.getV k) ∧
      changesOnlyMemory s.i.toNat (x.val + 1) s t) ∧
    (s.i.toNat + x.val > 4095 → ∃ t, exec (.storeRegs x) s = .next t ∧ faultsWith .addressOutOfRange s t)

/-- R204, R202, with the range fault (decision D7): V[0] to V[x] from I to I + x, the registers above `x`, I and memory
unchanged. -/
def Obligations.LoadRegsLoadsTheRun : Prop :=
  ∀ (x : Reg) (s : State),
    decodesTo (BitVec.ofNat 16 (0xF065 + x.val * 256)) (.loadRegs x) ∧
    (s.i.toNat + x.val ≤ 4095 → ∃ t, exec (.loadRegs x) s = .next t ∧
      (∀ k : Reg, t.getV k = if k ≤ x then s.mem.read (s.i.toNat + k.val) else s.getV k) ∧
      t = { s with v := t.v } ∧ sameMemory s t) ∧
    (s.i.toNat + x.val > 4095 → ∃ t, exec (.loadRegs x) s = .next t ∧ faultsWith .addressOutOfRange s t)

/-- R204: `LD [I],Vx` and later `LD Vx,[I]` with the same I and `x` restore the registers exactly, whatever the registers
held in between. -/
def Obligations.StoreThenLoadRestoresRegisters : Prop :=
  ∀ (x : Reg) (s : State), s.i.toNat + x.val ≤ 4095 →
    ∃ t, exec (.storeRegs x) s = .next t ∧
      ∀ u : State, u.mem = t.mem → u.i = s.i → ∃ w, exec (.loadRegs x) u = .next w ∧
        (∀ k : Reg, k ≤ x → w.getV k = s.getV k) ∧ (∀ k : Reg, x < k → w.getV k = u.getV k) ∧ w.mem = t.mem

/-! ### Reset and the host (70_reset_and_hazards.md, 10_state.md R32) -/

/-- The reset table of R400 (the spec's decision D2; the font bytes are K3): whatever state the core was in. Of the model's own
fields two are stated: `load` is open (R401: it follows reset; log 7, log 21), and the configuration stays as it is
(log 28). -/
def Obligations.ResetInstallsTheTable : Prop :=
  ∀ s : State, ∃ t, hostStep .reset s = .next t ∧ (∀ r, t.getV r = 0x00) ∧ t.i = 0x0000 ∧ t.pc = 0x0200 ∧ t.sp.val = 0 ∧
    (∀ k : Fin 16, t.stack[k] = 0x0000) ∧ t.dt = 0x00 ∧ t.st = 0x00 ∧ t.status = .run ∧ t.fcause.code = 0 ∧
    t.fpc = 0 ∧ t.fop = 0 ∧ t.loadOpen = true ∧ t.params = s.params ∧ (∀ k : Fin 16, t.key[k] = false) ∧
    (∀ (px : Fin 64) (py : Fin 32), t.screen[py][px] = false) ∧
    (∀ a, ¬ (0x050 ≤ a ∧ a ≤ 0x09F) → t.mem.read a = 0x00) ∧
    t.mem.bytes 0x050 15 = [0xF0, 0x90, 0x90, 0x90, 0xF0, 0x20, 0x60, 0x20, 0x20, 0x70, 0xF0, 0x10, 0xF0, 0x80, 0xF0] ∧
    t.mem.bytes 0x05F 15 = [0xF0, 0x10, 0xF0, 0x10, 0xF0, 0x90, 0x90, 0xF0, 0x10, 0x10, 0xF0, 0x80, 0xF0, 0x10, 0xF0] ∧
    t.mem.bytes 0x06E 15 = [0xF0, 0x80, 0xF0, 0x90, 0xF0, 0xF0, 0x10, 0x20, 0x40, 0x40, 0xF0, 0x90, 0xF0, 0x90, 0xF0] ∧
    t.mem.bytes 0x07D 15 = [0xF0, 0x90, 0xF0, 0x10, 0xF0, 0xF0, 0x90, 0xF0, 0x90, 0x90, 0xE0, 0x90, 0xE0, 0x90, 0xE0] ∧
    t.mem.bytes 0x08C 20 = [0xF0, 0x80, 0x80, 0x80, 0xF0, 0xE0, 0x90, 0x90, 0x90, 0xE0, 0xF0, 0x80, 0xF0, 0x80, 0xF0,
      0xF0, 0x80, 0xF0, 0x80, 0x80]

/-- `load` (R402, R48; decision D15, log 22): the bytes from 0x200 on, nothing else changed (PC included); refused when it
is not open or the program is too long. -/
def Obligations.LoadPlacesTheProgram : Prop :=
  ∀ (bytes : List Byte) (s : State),
    (s.loadOpen = true → bytes.length ≤ 3584 → ∃ t, hostStep (.load bytes) s = .next t ∧
      (∀ a, t.mem.read a =
        if 0x200 ≤ a ∧ a < 0x200 + bytes.length then bytes.getD (a - 0x200) 0 else s.mem.read a) ∧
      t = { s with mem := t.mem, loadOpen := false }) ∧
    (s.loadOpen = false → hostStep (.load bytes) s = .refused .loadNotOpen) ∧
    (s.loadOpen = true → bytes.length > 3584 → hostStep (.load bytes) s = .refused .programTooLong)

/-- `cycle(rnd_in)` (R32, R161): the byte reaches an `RND` of this cycle and nothing later; in HALTED nothing changes
(R309). The list of pending bytes is the model's (log 23). -/
def Obligations.HostCycleOffersItsByte : Prop :=
  ∀ (b : Byte) (s : State), ∃ t, hostStep (.cycle b) s = .next t ∧ t.rndIn = s.rndIn ∧ t.rndDraws = s.rndDraws ∧
    (s.status = .halted → t = s) ∧
    (∀ x kk, fetches s (.rnd x kk) → t.getV x = b &&& kk ∧ ∀ r, r ≠ x → t.getV r = s.getV r) ∧
    ((∀ x kk, ¬ fetches s (.rnd x kk)) → ∃ u, step s = .next u ∧ t = u)

/-- `read_screen` (R32, R23): 2048 cells of 0 or 1, row-major, index = y * 64 + x. -/
def Obligations.ReadScreenIsRowMajor : Prop :=
  ∀ s : State, (readScreen s).length = 2048 ∧
    ∀ (px : Fin 64) (py : Fin 32), (readScreen s).getD (py.val * 64 + px.val) 0xFF =
      if s.screen[py][px] = true then 0x01 else 0x00

/-! ### The configuration and the cause numbers -/

/-- The configuration is no state (R25): no step and no host operation changes SECKEY_0E or VF_ORDER (R6). That it stands
in a field of State is the model's choice (log 28). -/
def Obligations.ParametersNeverChange : Prop :=
  (∀ s t : State, step s = .next t → t.params = s.params) ∧
  ∀ (op : HostOp) (s t : State), hostStep op s = .next t → t.params = s.params

/-- The table of R304, row by row, as `read_status` (R32) shows it to the host: the number of the cause, FPC the fetch
address, FOP the word or 0x0000 for a fetch fault (the numbers are the spec's decision D5, the conditions D7 to D9). -/
def Obligations.FaultsReportTheirNumbers : Prop :=
  ∀ s : State, s.status = .run →
    (s.pc.toNat + 1 > 4095 → ∃ t, step s = .next t ∧ readStatus t = ⟨.halted, 2, s.pc, 0x0000, s.st, s.dt⟩) ∧
    (∀ e, s.pc.toNat + 1 ≤ 4095 → decodeWith s.params.secKey (nextWord s) = .error e →
      ∃ t, step s = .next t ∧ readStatus t = ⟨.halted, 1, s.pc, nextWord s, s.st, s.dt⟩) ∧
    (∀ nnn, fetches s (.call nnn) → s.sp.val = 16 →
      ∃ t, step s = .next t ∧ readStatus t = ⟨.halted, 3, s.pc, nextWord s, s.st, s.dt⟩) ∧
    (fetches s .ret → s.sp.val = 0 →
      ∃ t, step s = .next t ∧ readStatus t = ⟨.halted, 4, s.pc, nextWord s, s.st, s.dt⟩) ∧
    (∀ x, fetches s (.skp x) ∨ fetches s (.sknp x) → (s.getV x).toNat > 15 →
      ∃ t, step s = .next t ∧ readStatus t = ⟨.halted, 5, s.pc, nextWord s, s.st, s.dt⟩) ∧
    (∀ x y n, fetches s (.drw x y n) → n ≥ 1 → s.i.toNat + n - 1 > 4095 →
      ∃ t, step s = .next t ∧ readStatus t = ⟨.halted, 2, s.pc, nextWord s, s.st, s.dt⟩) ∧
    (∀ x, fetches s (.ldB x) → s.i.toNat + 2 > 4095 →
      ∃ t, step s = .next t ∧ readStatus t = ⟨.halted, 2, s.pc, nextWord s, s.st, s.dt⟩) ∧
    (∀ x, fetches s (.storeRegs x) ∨ fetches s (.loadRegs x) → s.i.toNat + x.val > 4095 →
      ∃ t, step s = .next t ∧ readStatus t = ⟨.halted, 2, s.pc, nextWord s, s.st, s.dt⟩)

/-! ### The keypad of the host -/

/-- `set_keypad` (R32, R22): the snapshot is replaced whole and nothing else changes, whatever state the core is in, HALTED
and the reset state included (decision D23: the host writes nothing else; that `load` stays open is log 21). -/
def Obligations.SetKeypadReplacesTheSnapshot : Prop :=
  ∀ (k : Keypad) (s : State), ∃ t, hostStep (.setKeypad k) s = .next t ∧ t.key = k ∧ t = { s with key := t.key }
end

