-- ==== Sys2Proof/Laws/Decode.lean ====
section
/-! SUPPORT. The fields of a word (spec/30_encoding.md R61) and the word formats (R62) as numbers, so that every
question about an encoding is one of linear arithmetic. -/

namespace Sys2Proof

/-! ### The fields as numbers -/

theorem toNat_fieldG (w : Word) : (fieldG w).toNat = w.toNat / 4096 % 16 := by
  simp [fieldG, BitVec.extractLsb'_toNat, Nat.shiftRight_eq_div_pow]

theorem val_fieldX (w : Word) : (fieldX w).val = w.toNat / 256 % 16 := by
  show (w.extractLsb' 8 4).toNat = _
  simp [BitVec.extractLsb'_toNat, Nat.shiftRight_eq_div_pow]

theorem val_fieldY (w : Word) : (fieldY w).val = w.toNat / 16 % 16 := by
  show (w.extractLsb' 4 4).toNat = _
  simp [BitVec.extractLsb'_toNat, Nat.shiftRight_eq_div_pow]

theorem toNat_fieldN (w : Word) : (fieldN w).toNat = w.toNat % 16 := by
  simp [fieldN, BitVec.extractLsb'_toNat]

theorem toNat_fieldKK (w : Word) : (fieldKK w).toNat = w.toNat % 256 := by
  simp [fieldKK, BitVec.extractLsb'_toNat]

theorem toNat_fieldNNN (w : Word) : (fieldNNN w).toNat = w.toNat % 4096 := by
  simp [fieldNNN, BitVec.extractLsb'_toNat]

/-! ### The formats as numbers -/

theorem toNat_append_eq {m n : Nat} (a : BitVec m) (b : BitVec n) :
    (a ++ b).toNat = a.toNat * 2 ^ n + b.toNat := by
  rw [BitVec.toNat_append, ← Nat.shiftLeft_add_eq_or_of_lt b.isLt, Nat.shiftLeft_eq]

@[simp] theorem toNat_regBits (x : Reg) : (regBits x).toNat = x.val := rfl

theorem toNat_wordOfBytes (hi lo : Byte) : (wordOfBytes hi lo).toNat = hi.toNat * 256 + lo.toNat :=
  toNat_append_eq hi lo

theorem toNat_formatA (g : BitVec 4) (nnn : Addr12) : (formatA g nnn).toNat = g.toNat * 4096 + nnn.toNat :=
  toNat_append_eq g nnn

theorem toNat_formatXK (g : BitVec 4) (x : Reg) (kk : Byte) :
    (formatXK g x kk).toNat = g.toNat * 4096 + x.val * 256 + kk.toNat := by
  show (g ++ regBits x ++ kk).toNat = _
  rw [toNat_append_eq, toNat_append_eq, toNat_regBits]
  omega

theorem toNat_formatXYN (g : BitVec 4) (x y : Reg) (n : BitVec 4) :
    (formatXYN g x y n).toNat = g.toNat * 4096 + x.val * 256 + y.val * 16 + n.toNat := by
  show (g ++ regBits x ++ regBits y ++ n).toNat = _
  rw [toNat_append_eq, toNat_append_eq, toNat_append_eq, toNat_regBits, toNat_regBits]
  omega

/-! ### The fields of a format -/

section
variable (g : BitVec 4) (x y : Reg) (n : BitVec 4) (kk : Byte) (nnn : Addr12)

@[simp] theorem fieldG_formatA : fieldG (formatA g nnn) = g := by
  apply BitVec.eq_of_toNat_eq
  have := nnn.isLt
  have := g.isLt
  rw [toNat_fieldG, toNat_formatA]
  omega

@[simp] theorem fieldNNN_formatA : fieldNNN (formatA g nnn) = nnn := by
  apply BitVec.eq_of_toNat_eq
  have := nnn.isLt
  rw [toNat_fieldNNN, toNat_formatA]
  omega

@[simp] theorem fieldG_formatXK : fieldG (formatXK g x kk) = g := by
  apply BitVec.eq_of_toNat_eq
  have := kk.isLt
  have := g.isLt
  rw [toNat_fieldG, toNat_formatXK]
  omega

@[simp] theorem fieldX_formatXK : fieldX (formatXK g x kk) = x := by
  apply Fin.ext
  have := kk.isLt
  rw [val_fieldX, toNat_formatXK]
  omega

@[simp] theorem fieldKK_formatXK : fieldKK (formatXK g x kk) = kk := by
  apply BitVec.eq_of_toNat_eq
  have := kk.isLt
  rw [toNat_fieldKK, toNat_formatXK]
  omega

/-- The low nibble of the byte, which is what SECKEY_0E = low_nibble looks at. -/
@[simp] theorem fieldN_formatXK : fieldN (formatXK g x kk) = kk.extractLsb' 0 4 := by
  apply BitVec.eq_of_toNat_eq
  have := kk.isLt
  rw [toNat_fieldN, toNat_formatXK, BitVec.extractLsb'_toNat]
  simp
  omega

@[simp] theorem fieldG_formatXYN : fieldG (formatXYN g x y n) = g := by
  apply BitVec.eq_of_toNat_eq
  have := n.isLt
  have := g.isLt
  rw [toNat_fieldG, toNat_formatXYN]
  omega

@[simp] theorem fieldX_formatXYN : fieldX (formatXYN g x y n) = x := by
  apply Fin.ext
  have := n.isLt
  rw [val_fieldX, toNat_formatXYN]
  omega

@[simp] theorem fieldY_formatXYN : fieldY (formatXYN g x y n) = y := by
  apply Fin.ext
  have := n.isLt
  rw [val_fieldY, toNat_formatXYN]
  omega

@[simp] theorem fieldN_formatXYN : fieldN (formatXYN g x y n) = n := by
  apply BitVec.eq_of_toNat_eq
  have := n.isLt
  rw [toNat_fieldN, toNat_formatXYN]
  omega

end

/-! ### Every word has each format -/

theorem word_eq_formatA (w : Word) : formatA (fieldG w) (fieldNNN w) = w := by
  apply BitVec.eq_of_toNat_eq
  have := w.isLt
  rw [toNat_formatA, toNat_fieldG, toNat_fieldNNN]
  omega

theorem word_eq_formatXK (w : Word) : formatXK (fieldG w) (fieldX w) (fieldKK w) = w := by
  apply BitVec.eq_of_toNat_eq
  have := w.isLt
  rw [toNat_formatXK, toNat_fieldG, val_fieldX, toNat_fieldKK]
  omega

theorem word_eq_formatXYN (w : Word) : formatXYN (fieldG w) (fieldX w) (fieldY w) (fieldN w) = w := by
  apply BitVec.eq_of_toNat_eq
  have := w.isLt
  rw [toNat_formatXYN, toNat_fieldG, val_fieldX, val_fieldY, toNat_fieldN]
  omega

/-! ### The masks of the opcode table -/

theorem and_append_eq {m n : Nat} (a c : BitVec m) (b d : BitVec n) : (a ++ b) &&& (c ++ d) = (a &&& c) ++ (b &&& d) := by
  apply BitVec.eq_of_getLsbD_eq
  intro k hk
  simp only [BitVec.getLsbD_and, BitVec.getLsbD_append]
  split <;> rfl

theorem formatA_mask (g : BitVec 4) (nnn : Addr12) : formatA g nnn &&& 0xF000#16 = formatA g 0 := by
  have h : formatA g nnn &&& 0xF000#16 = (g &&& 0xF#4) ++ (nnn &&& 0#12) := and_append_eq g 0xF#4 nnn 0#12
  rw [h, show (0xF#4) = BitVec.allOnes 4 from rfl, BitVec.and_allOnes, BitVec.and_zero]
  rfl

theorem formatXK_mask (g : BitVec 4) (x : Reg) (kk : Byte) : formatXK g x kk &&& 0xF0FF#16 = formatXK g 0 kk := by
  have h : formatXK g x kk &&& 0xF0FF#16 = ((g ++ regBits x) &&& (0xF#4 ++ 0#4)) ++ (kk &&& 0xFF#8) :=
    and_append_eq (g ++ regBits x) (0xF#4 ++ 0#4) kk 0xFF#8
  rw [h, and_append_eq, show (0xF#4) = BitVec.allOnes 4 from rfl, show (0xFF#8) = BitVec.allOnes 8 from rfl,
    BitVec.and_allOnes, BitVec.and_allOnes, BitVec.and_zero]
  rfl

theorem formatXYN_mask (g : BitVec 4) (x y : Reg) (n : BitVec 4) :
    formatXYN g x y n &&& 0xF00F#16 = formatXYN g 0 0 n := by
  have h : formatXYN g x y n &&& 0xF00F#16 =
      ((g ++ regBits x ++ regBits y) &&& (0xF#4 ++ 0#4 ++ 0#4)) ++ (n &&& 0xF#4) :=
    and_append_eq (g ++ regBits x ++ regBits y) (0xF#4 ++ 0#4 ++ 0#4) n 0xF#4
  rw [h, and_append_eq, and_append_eq, show (0xF#4) = BitVec.allOnes 4 from rfl,
    BitVec.and_allOnes, BitVec.and_allOnes, BitVec.and_zero, BitVec.and_zero]
  rfl

/-- What the three masks of the table read of any word. -/
theorem and_F000 (w : Word) : w &&& 0xF000#16 = formatA (fieldG w) 0 := by
  conv_lhs => rw [← word_eq_formatA w]
  exact formatA_mask _ _

theorem and_F0FF (w : Word) : w &&& 0xF0FF#16 = formatXK (fieldG w) 0 (fieldKK w) := by
  conv_lhs => rw [← word_eq_formatXK w]
  exact formatXK_mask _ _ _

theorem and_F00F (w : Word) : w &&& 0xF00F#16 = formatXYN (fieldG w) 0 0 (fieldN w) := by
  conv_lhs => rw [← word_eq_formatXYN w]
  exact formatXYN_mask _ _ _ _

end Sys2Proof
end

