-- ==== Sys2Proof/Laws/Memory.lean ====
section
/-! SUPPORT. The laws of memory: a read after a write, the canonical form, block writes, the range check. -/

namespace Sys2Proof.Machine

/-! ### One byte -/

theorem Memory.read_erase (m : Memory) (a a' : Nat) :
    (m.erase a).read a' = if a' = a then initByte a else m.read a' := by
  induction m with
  | nil => by_cases h : a' = a <;> simp [Memory.erase, Memory.read, h]
  | cons c m ih =>
    simp only [Memory.erase] at ih ⊢
    by_cases hc : c.1 = a
    · rw [List.filter_cons_of_neg (by simp [hc]), ih]
      by_cases h : a' = a
      · simp [h]
      · simp [Memory.read, h, hc, Ne.symm h]
    · rw [List.filter_cons_of_pos (by simp [hc]), Memory.read, ih, Memory.read]
      by_cases h : a' = a
      · simp [h, hc]
      · simp [h]

theorem Memory.read_insert (m : Memory) (a a' : Nat) (b : Byte) (hfresh : ∀ c ∈ m, c.1 ≠ a) :
    (m.insert a b).read a' = if a' = a then b else m.read a' := by
  induction m with
  | nil => simp only [Memory.insert, Memory.read, eq_comm]
  | cons c m ih =>
    have hc : c.1 ≠ a := hfresh c (by simp)
    have ih := ih fun d hd => hfresh d (by simp [hd])
    simp only [Memory.insert]
    split
    · simp only [Memory.read, eq_comm]
    · simp only [Memory.read, ih]
      by_cases h : a' = a
      · simp [h, hc]
      · simp [h]

theorem Memory.erase_fresh (m : Memory) (a : Nat) : ∀ c ∈ m.erase a, c.1 ≠ a := by
  intro c hc
  simpa [Memory.erase] using (List.mem_filter.mp hc).2

/-- A read after a write: the byte written at its own address, every other address as before. -/
theorem Memory.read_write (m : Memory) (a a' : Nat) (b : Byte) :
    (m.write a b).read a' = if a' = a then b else m.read a' := by
  unfold Memory.write
  split
  · next h => rw [Memory.read_erase, h]
  · rw [Memory.read_insert _ _ _ _ (Memory.erase_fresh m a), Memory.read_erase]
    split <;> simp_all

/-! ### The canonical form -/

theorem Memory.wfFrom_cons {lo : Nat} {c : Host.Cell} {m : Memory} :
    Memory.wfFrom lo (c :: m) = true ↔
      lo ≤ c.1 ∧ c.1 < 4096 ∧ c.2 ≠ initByte c.1 ∧ Memory.wfFrom (c.1 + 1) m = true := by
  simp [Memory.wfFrom, and_assoc]

theorem Memory.wfFrom_mono {lo lo' : Nat} {m : Memory} (h : lo' ≤ lo) (hm : Memory.wfFrom lo m = true) :
    Memory.wfFrom lo' m = true := by
  cases m with
  | nil => rfl
  | cons c m =>
    rw [Memory.wfFrom_cons] at hm ⊢
    exact ⟨by omega, hm.2⟩

theorem Memory.wfFrom_erase {lo : Nat} {m : Memory} (a : Nat) (hm : Memory.wfFrom lo m = true) :
    Memory.wfFrom lo (m.erase a) = true := by
  induction m generalizing lo with
  | nil => rfl
  | cons c m ih =>
    rw [Memory.wfFrom_cons] at hm
    have htail := ih hm.2.2.2
    simp only [Memory.erase] at htail ⊢
    by_cases hc : c.1 = a
    · rw [List.filter_cons_of_neg (by simp [hc])]
      exact Memory.wfFrom_mono (by omega) htail
    · rw [List.filter_cons_of_pos (by simp [hc]), Memory.wfFrom_cons]
      exact ⟨hm.1, hm.2.1, hm.2.2.1, htail⟩

theorem Memory.wfFrom_insert {lo a : Nat} {b : Byte} {m : Memory} (hlo : lo ≤ a) (ha : a < 4096) (hb : b ≠ initByte a)
    (hfresh : ∀ c ∈ m, c.1 ≠ a) (hm : Memory.wfFrom lo m = true) : Memory.wfFrom lo (m.insert a b) = true := by
  induction m generalizing lo with
  | nil => simpa [Memory.insert, Memory.wfFrom_cons] using ⟨hlo, ha, hb, rfl⟩
  | cons c m ih =>
    have hc : c.1 ≠ a := hfresh c (by simp)
    rw [Memory.wfFrom_cons] at hm
    simp only [Memory.insert]
    split
    · rw [Memory.wfFrom_cons, Memory.wfFrom_cons]
      exact ⟨hlo, ha, hb, by simpa using (by omega : a + 1 ≤ c.1), hm.2⟩
    · rw [Memory.wfFrom_cons]
      exact ⟨hm.1, hm.2.1, hm.2.2.1, ih (by omega) (fun d hd => hfresh d (by simp [hd])) hm.2.2.2⟩

/-- A write inside memory keeps the canonical form. -/
theorem Memory.wf_write {m : Memory} {a : Nat} (b : Byte) (ha : a < 4096) (hm : m.wf = true) :
    (m.write a b).wf = true := by
  unfold Memory.write Memory.wf at *
  split
  · exact Memory.wfFrom_erase a hm
  · next hb =>
    exact Memory.wfFrom_insert (Nat.zero_le a) ha hb (Memory.erase_fresh m a) (Memory.wfFrom_erase a hm)

/-! ### Runs of bytes -/

/-- A read after a block write: byte `k` of the block at `a + k`, every address outside the block as before. -/
theorem Memory.read_writeBytes (m : Memory) (a a' : Nat) (bs : List Byte) :
    (m.writeBytes a bs).read a' =
      if a ≤ a' ∧ a' < a + bs.length then bs.getD (a' - a) 0 else m.read a' := by
  induction bs generalizing m a with
  | nil => simp [Memory.writeBytes, show ¬ (a ≤ a' ∧ a' < a) by omega]
  | cons b bs ih =>
    rw [Memory.writeBytes, ih, Memory.read_write, List.length_cons]
    by_cases h1 : a' = a
    · subst h1
      simp
    · by_cases h2 : a + 1 ≤ a' ∧ a' < a + 1 + bs.length
      · rw [if_pos h2, if_pos (by omega), show a' - a = (a' - (a + 1)) + 1 by omega, List.getD_cons_succ]
      · rw [if_neg h2, if_neg h1, if_neg (by omega)]

theorem Memory.wf_writeBytes {m : Memory} {a : Nat} (bs : List Byte) (ha : a + bs.length ≤ 4096) (hm : m.wf = true) :
    (m.writeBytes a bs).wf = true := by
  induction bs generalizing m a with
  | nil => exact hm
  | cons b bs ih =>
    rw [List.length_cons] at ha
    exact ih (by omega) (Memory.wf_write b (by omega) hm)

@[simp] theorem Memory.length_bytes (m : Memory) (a n : Nat) : (m.bytes a n).length = n := by
  simp [Memory.bytes]

theorem Memory.getD_bytes (m : Memory) (a n k : Nat) (h : k < n) : (m.bytes a n).getD k 0 = m.read (a + k) := by
  simp [Memory.bytes, h]

/-! ### The range check -/

theorem accessInRange_iff {a n : Nat} : accessInRange a n = true ↔ n = 0 ∨ a + n - 1 ≤ 4095 := by
  simp [accessInRange]

theorem accessInRange_false_iff {a n : Nat} : accessInRange a n = false ↔ n ≥ 1 ∧ a + n - 1 > 4095 := by
  simp [accessInRange]
  omega

/-- Everything `memRead` can answer. -/
theorem memRead_eq (m : Memory) (a n : Nat) :
    memRead m a n = if n = 0 ∨ a + n - 1 ≤ 4095 then some (m.bytes a n) else none := by
  unfold memRead
  simp [accessInRange_iff]

/-- Everything `memWrite` can answer. -/
theorem memWrite_eq (m : Memory) (a : Nat) (bs : List Byte) :
    memWrite m a bs = if bs.length = 0 ∨ a + bs.length - 1 ≤ 4095 then some (m.writeBytes a bs) else none := by
  unfold memWrite
  simp [accessInRange_iff]

/-- A block write that is not refused keeps the canonical form. -/
theorem memWrite_wf {m m' : Memory} {a : Nat} {bs : List Byte} (hm : m.wf = true) (h : memWrite m a bs = some m') :
    m'.wf = true := by
  rw [memWrite_eq] at h
  split at h
  · next hr =>
    obtain rfl := Option.some.inj h
    rcases bs with _ | ⟨b, bs⟩
    · exact hm
    · exact Memory.wf_writeBytes _ (by simp at hr ⊢; omega) hm
  · cases h

/-! ### The contents at reset -/

/-- The font stands at 0x050 to 0x09F, and every other byte is 0x00 (R400). -/
theorem initByte_eq (a : Nat) :
    initByte a = if 0x050 ≤ a ∧ a < 0x0A0 then fontBytes.getD (a - 0x050) 0 else 0 := by
  unfold initByte
  by_cases h : 0x050 ≤ a
  · by_cases h' : a < 0x0A0
    · simp [Config.fontBase, h, h']
    · have : fontBytes.length ≤ a - 0x050 := by
        simp [fontBytes]
        omega
      simp [Config.fontBase, h, h', List.getD_eq_getElem?_getD, List.getElem?_eq_none this]
  · simp [Config.fontBase, h]

@[simp] theorem Memory.read_nil (a : Nat) : Memory.read [] a = initByte a := rfl

end Sys2Proof.Machine
end

