-- ==== Sys2Proof/Laws/State.lean ====
section
/-! SUPPORT. What each named update of State does to each field: true by rfl, so that no proof unfolds a record
update. -/

namespace Sys2Proof.Machine

/-! ### setV -/

@[simp] theorem setV_v (s : State) (x : Reg) (b : Byte) : (s.setV x b).v = s.v.set x b := rfl
@[simp] theorem setV_pc (s : State) (x : Reg) (b : Byte) : (s.setV x b).pc = s.pc := rfl
@[simp] theorem setV_i (s : State) (x : Reg) (b : Byte) : (s.setV x b).i = s.i := rfl
@[simp] theorem setV_sp (s : State) (x : Reg) (b : Byte) : (s.setV x b).sp = s.sp := rfl
@[simp] theorem setV_stack (s : State) (x : Reg) (b : Byte) : (s.setV x b).stack = s.stack := rfl
@[simp] theorem setV_dt (s : State) (x : Reg) (b : Byte) : (s.setV x b).dt = s.dt := rfl
@[simp] theorem setV_st (s : State) (x : Reg) (b : Byte) : (s.setV x b).st = s.st := rfl
@[simp] theorem setV_status (s : State) (x : Reg) (b : Byte) : (s.setV x b).status = s.status := rfl
@[simp] theorem setV_fcause (s : State) (x : Reg) (b : Byte) : (s.setV x b).fcause = s.fcause := rfl
@[simp] theorem setV_fpc (s : State) (x : Reg) (b : Byte) : (s.setV x b).fpc = s.fpc := rfl
@[simp] theorem setV_fop (s : State) (x : Reg) (b : Byte) : (s.setV x b).fop = s.fop := rfl
@[simp] theorem setV_key (s : State) (x : Reg) (b : Byte) : (s.setV x b).key = s.key := rfl
@[simp] theorem setV_screen (s : State) (x : Reg) (b : Byte) : (s.setV x b).screen = s.screen := rfl
@[simp] theorem setV_mem (s : State) (x : Reg) (b : Byte) : (s.setV x b).mem = s.mem := rfl
@[simp] theorem setV_rndIn (s : State) (x : Reg) (b : Byte) : (s.setV x b).rndIn = s.rndIn := rfl
@[simp] theorem setV_rndDraws (s : State) (x : Reg) (b : Byte) : (s.setV x b).rndDraws = s.rndDraws := rfl
@[simp] theorem setV_loadOpen (s : State) (x : Reg) (b : Byte) : (s.setV x b).loadOpen = s.loadOpen := rfl
@[simp] theorem setV_params (s : State) (x : Reg) (b : Byte) : (s.setV x b).params = s.params := rfl

/-! ### takeFault -/

@[simp] theorem takeFault_v (s : State) (c : Cause) (a w : Word) : (takeFault c a w s).v = s.v := rfl
@[simp] theorem takeFault_pc (s : State) (c : Cause) (a w : Word) : (takeFault c a w s).pc = a := rfl
@[simp] theorem takeFault_i (s : State) (c : Cause) (a w : Word) : (takeFault c a w s).i = s.i := rfl
@[simp] theorem takeFault_sp (s : State) (c : Cause) (a w : Word) : (takeFault c a w s).sp = s.sp := rfl
@[simp] theorem takeFault_stack (s : State) (c : Cause) (a w : Word) : (takeFault c a w s).stack = s.stack := rfl
@[simp] theorem takeFault_dt (s : State) (c : Cause) (a w : Word) : (takeFault c a w s).dt = s.dt := rfl
@[simp] theorem takeFault_st (s : State) (c : Cause) (a w : Word) : (takeFault c a w s).st = s.st := rfl
@[simp] theorem takeFault_status (s : State) (c : Cause) (a w : Word) : (takeFault c a w s).status = .halted := rfl
@[simp] theorem takeFault_fcause (s : State) (c : Cause) (a w : Word) : (takeFault c a w s).fcause = c := rfl
@[simp] theorem takeFault_fpc (s : State) (c : Cause) (a w : Word) : (takeFault c a w s).fpc = a := rfl
@[simp] theorem takeFault_fop (s : State) (c : Cause) (a w : Word) : (takeFault c a w s).fop = w := rfl
@[simp] theorem takeFault_key (s : State) (c : Cause) (a w : Word) : (takeFault c a w s).key = s.key := rfl
@[simp] theorem takeFault_screen (s : State) (c : Cause) (a w : Word) : (takeFault c a w s).screen = s.screen := rfl
@[simp] theorem takeFault_mem (s : State) (c : Cause) (a w : Word) : (takeFault c a w s).mem = s.mem := rfl
@[simp] theorem takeFault_rndIn (s : State) (c : Cause) (a w : Word) : (takeFault c a w s).rndIn = s.rndIn := rfl
@[simp] theorem takeFault_rndDraws (s : State) (c : Cause) (a w : Word) : (takeFault c a w s).rndDraws = s.rndDraws := rfl
@[simp] theorem takeFault_loadOpen (s : State) (c : Cause) (a w : Word) : (takeFault c a w s).loadOpen = s.loadOpen := rfl
@[simp] theorem takeFault_params (s : State) (c : Cause) (a w : Word) : (takeFault c a w s).params = s.params := rfl

/-! ### raise -/

@[simp] theorem raise_v (s : State) (c : Cause) : (raise c s).v = s.v := rfl
@[simp] theorem raise_pc (s : State) (c : Cause) : (raise c s).pc = s.pc - 2 := rfl
@[simp] theorem raise_i (s : State) (c : Cause) : (raise c s).i = s.i := rfl
@[simp] theorem raise_sp (s : State) (c : Cause) : (raise c s).sp = s.sp := rfl
@[simp] theorem raise_stack (s : State) (c : Cause) : (raise c s).stack = s.stack := rfl
@[simp] theorem raise_dt (s : State) (c : Cause) : (raise c s).dt = s.dt := rfl
@[simp] theorem raise_st (s : State) (c : Cause) : (raise c s).st = s.st := rfl
@[simp] theorem raise_status (s : State) (c : Cause) : (raise c s).status = .halted := rfl
@[simp] theorem raise_fcause (s : State) (c : Cause) : (raise c s).fcause = c := rfl
@[simp] theorem raise_fpc (s : State) (c : Cause) : (raise c s).fpc = s.pc - 2 := rfl
@[simp] theorem raise_fop (s : State) (c : Cause) : (raise c s).fop = s.mem.word (s.pc - 2).toNat := rfl
@[simp] theorem raise_key (s : State) (c : Cause) : (raise c s).key = s.key := rfl
@[simp] theorem raise_screen (s : State) (c : Cause) : (raise c s).screen = s.screen := rfl
@[simp] theorem raise_mem (s : State) (c : Cause) : (raise c s).mem = s.mem := rfl
@[simp] theorem raise_rndIn (s : State) (c : Cause) : (raise c s).rndIn = s.rndIn := rfl
@[simp] theorem raise_rndDraws (s : State) (c : Cause) : (raise c s).rndDraws = s.rndDraws := rfl
@[simp] theorem raise_loadOpen (s : State) (c : Cause) : (raise c s).loadOpen = s.loadOpen := rfl
@[simp] theorem raise_params (s : State) (c : Cause) : (raise c s).params = s.params := rfl

/-! ### pcPlus2 -/

@[simp] theorem pcPlus2_v (s : State) : s.pcPlus2.v = s.v := rfl
@[simp] theorem pcPlus2_pc (s : State) : s.pcPlus2.pc = s.pc + 2 := rfl
@[simp] theorem pcPlus2_i (s : State) : s.pcPlus2.i = s.i := rfl
@[simp] theorem pcPlus2_sp (s : State) : s.pcPlus2.sp = s.sp := rfl
@[simp] theorem pcPlus2_stack (s : State) : s.pcPlus2.stack = s.stack := rfl
@[simp] theorem pcPlus2_dt (s : State) : s.pcPlus2.dt = s.dt := rfl
@[simp] theorem pcPlus2_st (s : State) : s.pcPlus2.st = s.st := rfl
@[simp] theorem pcPlus2_status (s : State) : s.pcPlus2.status = s.status := rfl
@[simp] theorem pcPlus2_fcause (s : State) : s.pcPlus2.fcause = s.fcause := rfl
@[simp] theorem pcPlus2_fpc (s : State) : s.pcPlus2.fpc = s.fpc := rfl
@[simp] theorem pcPlus2_fop (s : State) : s.pcPlus2.fop = s.fop := rfl
@[simp] theorem pcPlus2_key (s : State) : s.pcPlus2.key = s.key := rfl
@[simp] theorem pcPlus2_screen (s : State) : s.pcPlus2.screen = s.screen := rfl
@[simp] theorem pcPlus2_mem (s : State) : s.pcPlus2.mem = s.mem := rfl
@[simp] theorem pcPlus2_rndIn (s : State) : s.pcPlus2.rndIn = s.rndIn := rfl
@[simp] theorem pcPlus2_rndDraws (s : State) : s.pcPlus2.rndDraws = s.rndDraws := rfl
@[simp] theorem pcPlus2_loadOpen (s : State) : s.pcPlus2.loadOpen = s.loadOpen := rfl
@[simp] theorem pcPlus2_params (s : State) : s.pcPlus2.params = s.params := rfl

/-! ### pcMinus2 -/

@[simp] theorem pcMinus2_v (s : State) : s.pcMinus2.v = s.v := rfl
@[simp] theorem pcMinus2_pc (s : State) : s.pcMinus2.pc = s.pc - 2 := rfl
@[simp] theorem pcMinus2_i (s : State) : s.pcMinus2.i = s.i := rfl
@[simp] theorem pcMinus2_sp (s : State) : s.pcMinus2.sp = s.sp := rfl
@[simp] theorem pcMinus2_stack (s : State) : s.pcMinus2.stack = s.stack := rfl
@[simp] theorem pcMinus2_dt (s : State) : s.pcMinus2.dt = s.dt := rfl
@[simp] theorem pcMinus2_st (s : State) : s.pcMinus2.st = s.st := rfl
@[simp] theorem pcMinus2_status (s : State) : s.pcMinus2.status = s.status := rfl
@[simp] theorem pcMinus2_fcause (s : State) : s.pcMinus2.fcause = s.fcause := rfl
@[simp] theorem pcMinus2_fpc (s : State) : s.pcMinus2.fpc = s.fpc := rfl
@[simp] theorem pcMinus2_fop (s : State) : s.pcMinus2.fop = s.fop := rfl
@[simp] theorem pcMinus2_key (s : State) : s.pcMinus2.key = s.key := rfl
@[simp] theorem pcMinus2_screen (s : State) : s.pcMinus2.screen = s.screen := rfl
@[simp] theorem pcMinus2_mem (s : State) : s.pcMinus2.mem = s.mem := rfl
@[simp] theorem pcMinus2_rndIn (s : State) : s.pcMinus2.rndIn = s.rndIn := rfl
@[simp] theorem pcMinus2_rndDraws (s : State) : s.pcMinus2.rndDraws = s.rndDraws := rfl
@[simp] theorem pcMinus2_loadOpen (s : State) : s.pcMinus2.loadOpen = s.loadOpen := rfl
@[simp] theorem pcMinus2_params (s : State) : s.pcMinus2.params = s.params := rfl

/-! ### closeLoad -/

@[simp] theorem closeLoad_v (s : State) : (closeLoad s).v = s.v := rfl
@[simp] theorem closeLoad_pc (s : State) : (closeLoad s).pc = s.pc := rfl
@[simp] theorem closeLoad_i (s : State) : (closeLoad s).i = s.i := rfl
@[simp] theorem closeLoad_sp (s : State) : (closeLoad s).sp = s.sp := rfl
@[simp] theorem closeLoad_stack (s : State) : (closeLoad s).stack = s.stack := rfl
@[simp] theorem closeLoad_dt (s : State) : (closeLoad s).dt = s.dt := rfl
@[simp] theorem closeLoad_st (s : State) : (closeLoad s).st = s.st := rfl
@[simp] theorem closeLoad_status (s : State) : (closeLoad s).status = s.status := rfl
@[simp] theorem closeLoad_fcause (s : State) : (closeLoad s).fcause = s.fcause := rfl
@[simp] theorem closeLoad_fpc (s : State) : (closeLoad s).fpc = s.fpc := rfl
@[simp] theorem closeLoad_fop (s : State) : (closeLoad s).fop = s.fop := rfl
@[simp] theorem closeLoad_key (s : State) : (closeLoad s).key = s.key := rfl
@[simp] theorem closeLoad_screen (s : State) : (closeLoad s).screen = s.screen := rfl
@[simp] theorem closeLoad_mem (s : State) : (closeLoad s).mem = s.mem := rfl
@[simp] theorem closeLoad_rndIn (s : State) : (closeLoad s).rndIn = s.rndIn := rfl
@[simp] theorem closeLoad_rndDraws (s : State) : (closeLoad s).rndDraws = s.rndDraws := rfl
@[simp] theorem closeLoad_loadOpen (s : State) : (closeLoad s).loadOpen = false := rfl
@[simp] theorem closeLoad_params (s : State) : (closeLoad s).params = s.params := rfl

/-! ### advance -/

@[simp] theorem advance_v (s : State) : (advance s).v = s.v := rfl
@[simp] theorem advance_pc (s : State) : (advance s).pc = s.pc + 2 := rfl
@[simp] theorem advance_i (s : State) : (advance s).i = s.i := rfl
@[simp] theorem advance_sp (s : State) : (advance s).sp = s.sp := rfl
@[simp] theorem advance_stack (s : State) : (advance s).stack = s.stack := rfl
@[simp] theorem advance_dt (s : State) : (advance s).dt = s.dt := rfl
@[simp] theorem advance_st (s : State) : (advance s).st = s.st := rfl
@[simp] theorem advance_status (s : State) : (advance s).status = s.status := rfl
@[simp] theorem advance_fcause (s : State) : (advance s).fcause = s.fcause := rfl
@[simp] theorem advance_fpc (s : State) : (advance s).fpc = s.fpc := rfl
@[simp] theorem advance_fop (s : State) : (advance s).fop = s.fop := rfl
@[simp] theorem advance_key (s : State) : (advance s).key = s.key := rfl
@[simp] theorem advance_screen (s : State) : (advance s).screen = s.screen := rfl
@[simp] theorem advance_mem (s : State) : (advance s).mem = s.mem := rfl
@[simp] theorem advance_rndIn (s : State) : (advance s).rndIn = s.rndIn := rfl
@[simp] theorem advance_rndDraws (s : State) : (advance s).rndDraws = s.rndDraws := rfl
@[simp] theorem advance_loadOpen (s : State) : (advance s).loadOpen = false := rfl
@[simp] theorem advance_params (s : State) : (advance s).params = s.params := rfl

/-! ### tick -/

@[simp] theorem tick_v (s : State) : (tick s).v = s.v := rfl
@[simp] theorem tick_pc (s : State) : (tick s).pc = s.pc := rfl
@[simp] theorem tick_i (s : State) : (tick s).i = s.i := rfl
@[simp] theorem tick_sp (s : State) : (tick s).sp = s.sp := rfl
@[simp] theorem tick_stack (s : State) : (tick s).stack = s.stack := rfl
@[simp] theorem tick_dt (s : State) : (tick s).dt = tickTimer s.dt := rfl
@[simp] theorem tick_st (s : State) : (tick s).st = tickTimer s.st := rfl
@[simp] theorem tick_status (s : State) : (tick s).status = s.status := rfl
@[simp] theorem tick_fcause (s : State) : (tick s).fcause = s.fcause := rfl
@[simp] theorem tick_fpc (s : State) : (tick s).fpc = s.fpc := rfl
@[simp] theorem tick_fop (s : State) : (tick s).fop = s.fop := rfl
@[simp] theorem tick_key (s : State) : (tick s).key = s.key := rfl
@[simp] theorem tick_screen (s : State) : (tick s).screen = s.screen := rfl
@[simp] theorem tick_mem (s : State) : (tick s).mem = s.mem := rfl
@[simp] theorem tick_rndIn (s : State) : (tick s).rndIn = s.rndIn := rfl
@[simp] theorem tick_rndDraws (s : State) : (tick s).rndDraws = s.rndDraws := rfl
@[simp] theorem tick_loadOpen (s : State) : (tick s).loadOpen = s.loadOpen := rfl
@[simp] theorem tick_params (s : State) : (tick s).params = s.params := rfl

/-! ### getV under the updates -/

/-- VF is V[15] (R11); statements write 15. -/
@[simp] theorem vf_eq : vf = 15 := by decide

theorem getV_def (s : State) (x : Reg) : s.getV x = s.v[x] := rfl

theorem getV_setV (s : State) (x y : Reg) (b : Byte) : (s.setV x b).getV y = if x = y then b else s.getV y := by
  simp only [State.getV, State.setV, Fin.getElem_fin, Vector.getElem_set, Fin.val_inj]

@[simp] theorem getV_setV_self (s : State) (x : Reg) (b : Byte) : (s.setV x b).getV x = b := by
  simp [getV_setV]

theorem getV_setV_of_ne (s : State) {x y : Reg} (b : Byte) (h : x ≠ y) : (s.setV x b).getV y = s.getV y := by
  simp [getV_setV, h]

@[simp] theorem getV_takeFault (s : State) (c : Cause) (a w : Word) (x : Reg) : (takeFault c a w s).getV x = s.getV x := rfl
@[simp] theorem getV_raise (s : State) (c : Cause) (x : Reg) : (raise c s).getV x = s.getV x := rfl
@[simp] theorem getV_pcPlus2 (s : State) (x : Reg) : s.pcPlus2.getV x = s.getV x := rfl
@[simp] theorem getV_pcMinus2 (s : State) (x : Reg) : s.pcMinus2.getV x = s.getV x := rfl
@[simp] theorem getV_closeLoad (s : State) (x : Reg) : (closeLoad s).getV x = s.getV x := rfl
@[simp] theorem getV_advance (s : State) (x : Reg) : (advance s).getV x = s.getV x := rfl
@[simp] theorem getV_tick (s : State) (x : Reg) : (tick s).getV x = s.getV x := rfl

/-- Two states that agree on the registers and on all other fields are equal. -/
theorem State.ext_of_getV {s t : State} (hv : ∀ r, t.getV r = s.getV r) (h : t = { s with v := t.v }) : t = s := by
  have : t.v = s.v := by
    apply Vector.ext
    intro k hk
    exact hv ⟨k, hk⟩
  rw [h, this]

/-- A register write changes the registers and nothing else. -/
theorem setV_only_v (s : State) (x : Reg) (b : Byte) : s.setV x b = { s with v := (s.setV x b).v } := rfl

end Sys2Proof.Machine
end

