-- ==== Sys2Proof/Laws/Ops.lean ====
section
/-! SUPPORT. What each shared operation on PC, the stack, the keypad, the timers and the random input can do. -/

namespace Sys2Proof.Machine

/-- Everything a push can do. -/
theorem push_cases (w : Word) (s : State) :
    (s.sp.val = 16 ∧ push w s = none) ∨
    (∃ h : s.sp.val < 16,
      push w s = some { s with stack := s.stack.set s.sp.val w, sp := ⟨s.sp.val + 1, by omega⟩ }) := by
  have hsp := s.sp.isLt
  unfold push
  by_cases h : s.sp.val < 16
  · exact .inr ⟨h, dif_pos h⟩
  · exact .inl ⟨by omega, dif_neg h⟩

/-- Everything a pop can do. -/
theorem pop_cases (s : State) :
    (s.sp.val = 0 ∧ pop s = none) ∨
    (∃ h : 0 < s.sp.val,
      pop s = some (s.stack[s.sp.val - 1], { s with sp := ⟨s.sp.val - 1, by omega⟩ })) := by
  unfold pop
  by_cases h : s.sp.val = 0
  · exact .inl ⟨h, dif_pos h⟩
  · exact .inr ⟨by omega, dif_neg h⟩

theorem skipIf_true (s : State) : skipIf true s = s.pcPlus2 := rfl

theorem skipIf_false (s : State) : skipIf false s = s := rfl

/-- A skip changes PC and nothing else. -/
theorem skipIf_eq (c : Bool) (s : State) : skipIf c s = { s with pc := if c then s.pc + 2 else s.pc } := by
  cases c <;> rfl

@[simp] theorem fetchAddress_advance (s : State) : fetchAddress (advance s) = s.pc := by
  show s.pc + 2 - 2 = s.pc
  rw [BitVec.add_sub_cancel]

/-- A fault raised in the execute phase is taken at the fetch address with the word there (R303). -/
theorem raise_advance (c : Cause) (s : State) :
    raise c (advance s) = takeFault c s.pc (s.mem.word s.pc.toNat) (closeLoad s) := by
  rw [raise, fetchAddress_advance]
  rfl

/-- The least pressed key (R182). -/
theorem firstKey_eq_some {k : Keypad} {j : Fin 16} :
    firstKey k = some j ↔ k[j] = true ∧ ∀ i : Fin 16, i < j → k[i] = false := by
  unfold firstKey
  rw [List.find?_eq_some_iff_getElem]
  constructor
  · rintro ⟨hj, n, hn, heq, hlt⟩
    refine ⟨by simpa using hj, fun i hi => ?_⟩
    have hnj : n = j.val := by
      have := congrArg Fin.val heq
      simpa using this
    have := hlt i.val (by omega)
    simpa using this
  · rintro ⟨hj, hlt⟩
    refine ⟨by simpa using hj, j.val, by simp, by simp, fun n hn => ?_⟩
    have := hlt ⟨n, by omega⟩ hn
    simpa using this

theorem firstKey_eq_none {k : Keypad} : firstKey k = none ↔ ∀ j : Fin 16, k[j] = false := by
  unfold firstKey
  rw [List.find?_eq_none]
  simp

/-- A timer goes down by one while nonzero and stays at zero (R320). -/
theorem toNat_tickTimer (t : Byte) : (tickTimer t).toNat = t.toNat - 1 := by
  unfold tickTimer
  split
  · next h => simp [h]
  · next h =>
    have : t.toNat ≠ 0 := fun h0 => h (BitVec.eq_of_toNat_eq (by simpa using h0))
    rw [BitVec.toNat_sub]
    have := t.isLt
    simp
    omega

/-- Sampling the random input changes the model's own input fields and nothing else. -/
theorem rndSampled_only_input (s : State) :
    rndSampled s = { s with rndIn := (rndSampled s).rndIn, rndDraws := (rndSampled s).rndDraws } := by
  unfold rndSampled
  split <;> rfl

@[simp] theorem getV_rndSampled (s : State) (x : Reg) : (rndSampled s).getV x = s.getV x := by
  unfold rndSampled
  split <;> rfl

end Sys2Proof.Machine
end

