-- ==== Sys2Proof/Laws/PerInstr.lean ====
section
/-! SUPPORT. Facts about every instruction as syntax, one lemma per constructor. Family `InRow`: the encoder puts the
instruction into its own row of the opcode table. -/

namespace Sys2Proof.Laws.InRow

/-- The canonical word of the instruction is selected by its row of spec/opcode_table.json. -/
def Statement (i : Instr) : Prop := i.row.selects (encode i) = true

theorem of_mask {i : Instr} (h : encode i &&& i.row.mask = i.row.pattern) : Statement i := by
  unfold Statement Row.selects
  rw [h]
  exact beq_self_eq_true _

theorem of_F000 {i : Instr} (hm : i.row.mask = 0xF000#16) (hp : formatA (fieldG (encode i)) 0 = i.row.pattern) :
    Statement i := of_mask (by rw [hm, and_F000, hp])

theorem of_F0FF {i : Instr} (hm : i.row.mask = 0xF0FF#16)
    (hp : formatXK (fieldG (encode i)) 0 (fieldKK (encode i)) = i.row.pattern) : Statement i :=
  of_mask (by rw [hm, and_F0FF, hp])

theorem of_F00F {i : Instr} (hm : i.row.mask = 0xF00F#16)
    (hp : formatXYN (fieldG (encode i)) 0 0 (fieldN (encode i)) = i.row.pattern) : Statement i :=
  of_mask (by rw [hm, and_F00F, hp])

theorem cls : Statement .cls :=
  of_F0FF rfl (by rw [encode, fieldG_formatXK, fieldKK_formatXK]; rfl)

theorem ret : Statement .ret :=
  of_F0FF rfl (by rw [encode, fieldG_formatXK, fieldKK_formatXK]; rfl)

theorem jp (nnn : Addr12) : Statement (.jp nnn) :=
  of_F000 rfl (by rw [encode, fieldG_formatA]; rfl)

theorem call (nnn : Addr12) : Statement (.call nnn) :=
  of_F000 rfl (by rw [encode, fieldG_formatA]; rfl)

theorem seByte (x : Reg) (kk : Byte) : Statement (.seByte x kk) :=
  of_F000 rfl (by rw [encode, fieldG_formatXK]; rfl)

theorem sneByte (x : Reg) (kk : Byte) : Statement (.sneByte x kk) :=
  of_F000 rfl (by rw [encode, fieldG_formatXK]; rfl)

theorem seReg (x y : Reg) : Statement (.seReg x y) :=
  of_F000 rfl (by rw [encode, fieldG_formatXYN]; rfl)

theorem ldByte (x : Reg) (kk : Byte) : Statement (.ldByte x kk) :=
  of_F000 rfl (by rw [encode, fieldG_formatXK]; rfl)

theorem addByte (x : Reg) (kk : Byte) : Statement (.addByte x kk) :=
  of_F000 rfl (by rw [encode, fieldG_formatXK]; rfl)

theorem ldReg (x y : Reg) : Statement (.ldReg x y) :=
  of_F00F rfl (by rw [encode, fieldG_formatXYN, fieldN_formatXYN]; rfl)

theorem orReg (x y : Reg) : Statement (.orReg x y) :=
  of_F00F rfl (by rw [encode, fieldG_formatXYN, fieldN_formatXYN]; rfl)

theorem andReg (x y : Reg) : Statement (.andReg x y) :=
  of_F00F rfl (by rw [encode, fieldG_formatXYN, fieldN_formatXYN]; rfl)

theorem xorReg (x y : Reg) : Statement (.xorReg x y) :=
  of_F00F rfl (by rw [encode, fieldG_formatXYN, fieldN_formatXYN]; rfl)

theorem addReg (x y : Reg) : Statement (.addReg x y) :=
  of_F00F rfl (by rw [encode, fieldG_formatXYN, fieldN_formatXYN]; rfl)

theorem subReg (x y : Reg) : Statement (.subReg x y) :=
  of_F00F rfl (by rw [encode, fieldG_formatXYN, fieldN_formatXYN]; rfl)

theorem shr (x : Reg) : Statement (.shr x) :=
  of_F00F rfl (by rw [encode, fieldG_formatXYN, fieldN_formatXYN]; rfl)

theorem subnReg (x y : Reg) : Statement (.subnReg x y) :=
  of_F00F rfl (by rw [encode, fieldG_formatXYN, fieldN_formatXYN]; rfl)

theorem shl (x : Reg) : Statement (.shl x) :=
  of_F00F rfl (by rw [encode, fieldG_formatXYN, fieldN_formatXYN]; rfl)

theorem sneReg (x y : Reg) : Statement (.sneReg x y) :=
  of_F000 rfl (by rw [encode, fieldG_formatXYN]; rfl)

theorem ldI (nnn : Addr12) : Statement (.ldI nnn) :=
  of_F000 rfl (by rw [encode, fieldG_formatA]; rfl)

theorem jpV0 (nnn : Addr12) : Statement (.jpV0 nnn) :=
  of_F000 rfl (by rw [encode, fieldG_formatA]; rfl)

theorem rnd (x : Reg) (kk : Byte) : Statement (.rnd x kk) :=
  of_F000 rfl (by rw [encode, fieldG_formatXK]; rfl)

theorem drw (x y : Reg) (n : Nat) : Statement (.drw x y n) :=
  of_F000 rfl (by rw [encode, fieldG_formatXYN]; rfl)

theorem skp (x : Reg) : Statement (.skp x) :=
  of_F0FF rfl (by rw [encode, fieldG_formatXK, fieldKK_formatXK]; rfl)

theorem sknp (x : Reg) : Statement (.sknp x) :=
  of_F0FF rfl (by rw [encode, fieldG_formatXK, fieldKK_formatXK]; rfl)

theorem ldVxDt (x : Reg) : Statement (.ldVxDt x) :=
  of_F0FF rfl (by rw [encode, fieldG_formatXK, fieldKK_formatXK]; rfl)

theorem ldVxK (x : Reg) : Statement (.ldVxK x) :=
  of_F0FF rfl (by rw [encode, fieldG_formatXK, fieldKK_formatXK]; rfl)

theorem ldDtVx (x : Reg) : Statement (.ldDtVx x) :=
  of_F0FF rfl (by rw [encode, fieldG_formatXK, fieldKK_formatXK]; rfl)

theorem ldStVx (x : Reg) : Statement (.ldStVx x) :=
  of_F0FF rfl (by rw [encode, fieldG_formatXK, fieldKK_formatXK]; rfl)

theorem addI (x : Reg) : Statement (.addI x) :=
  of_F0FF rfl (by rw [encode, fieldG_formatXK, fieldKK_formatXK]; rfl)

theorem ldF (x : Reg) : Statement (.ldF x) :=
  of_F0FF rfl (by rw [encode, fieldG_formatXK, fieldKK_formatXK]; rfl)

theorem ldB (x : Reg) : Statement (.ldB x) :=
  of_F0FF rfl (by rw [encode, fieldG_formatXK, fieldKK_formatXK]; rfl)

theorem storeRegs (x : Reg) : Statement (.storeRegs x) :=
  of_F0FF rfl (by rw [encode, fieldG_formatXK, fieldKK_formatXK]; rfl)

theorem loadRegs (x : Reg) : Statement (.loadRegs x) :=
  of_F0FF rfl (by rw [encode, fieldG_formatXK, fieldKK_formatXK]; rfl)

end Sys2Proof.Laws.InRow
end

