-- ==== Sys2Proof/Laws/Regs.lean ====
section
/-! SUPPORT. The laws of the operand forms: the register run of a block transfer, the digits, the key number, and the
flag and result writes. -/

namespace Sys2Proof.Machine

/-! ### Register runs -/

@[simp] theorem length_regRun (s : State) (x : Reg) : (regRun s x).length = x.val + 1 := by
  simp [regRun]

/-- Byte `k` of the run is V[k]. -/
theorem getD_regRun (s : State) (x k : Reg) (h : k ≤ x) : (regRun s x).getD k.val 0 = s.getV k := by
  have hk : k.val < x.val + 1 := Nat.lt_succ_of_le h
  simp [regRun, hk, State.getV, Vector.getD]

theorem loadRun_getV (s : State) (k : Nat) (bs : List Byte) (r : Reg) :
    (loadRun s k bs).getV r = if k ≤ r.val ∧ r.val < k + bs.length then bs.getD (r.val - k) 0 else s.getV r := by
  induction bs generalizing s k with
  | nil => simp [loadRun, show ¬ (k ≤ r.val ∧ r.val < k) by omega]
  | cons b bs ih =>
    rw [loadRun, ih, List.length_cons]
    by_cases h1 : r.val = k
    · subst h1
      simp [State.getV]
    · have hset : State.getV { s with v := s.v.setIfInBounds k b } r = s.getV r := by
        simp [State.getV, Ne.symm h1]
      by_cases h2 : k + 1 ≤ r.val ∧ r.val < k + 1 + bs.length
      · rw [if_pos h2, if_pos (by omega), show r.val - k = (r.val - (k + 1)) + 1 by omega, List.getD_cons_succ]
      · rw [if_neg h2, hset, if_neg (by omega)]

/-- A register load changes the registers and nothing else. -/
theorem loadRun_only_v (s : State) (k : Nat) (bs : List Byte) :
    loadRun s k bs = { s with v := (loadRun s k bs).v } := by
  induction bs generalizing s k with
  | nil => rfl
  | cons b bs ih =>
    rw [loadRun]
    exact ih { s with v := s.v.setIfInBounds k b } (k + 1)

/-! ### Digits, glyphs, keys -/

@[simp] theorem length_bcdDigits (b : Byte) : (bcdDigits b).length = 3 := by simp [bcdDigits]

theorem toNat_glyphAddress (b : Byte) : (glyphAddress b).toNat = 0x050 + b.toNat % 16 * 5 := by
  simp only [glyphAddress, BitVec.toNat_ofNat, Config.fontBase, Config.fontGlyphBytes]
  omega

theorem keyOf_eq_some {b : Byte} {k : Fin 16} : keyOf b = some k ↔ b.toNat = k.val := by
  unfold keyOf
  constructor
  · intro h
    split at h
    · rw [← Option.some.inj h]
    · cases h
  · intro h
    rw [dif_pos (by omega)]
    simp [h]

theorem keyOf_eq_none {b : Byte} : keyOf b = none ↔ b.toNat > 15 := by
  unfold keyOf
  split
  · simp
    omega
  · simp
    omega

/-! ### Flags -/

@[simp] theorem flagByte_true : flagByte true = 0x01 := rfl

@[simp] theorem flagByte_false : flagByte false = 0x00 := rfl

/-- The registers after the flag and result writes in the machine's order: the result in `x`, the flag in VF unless
`x` is VF, the rest as before (R33). -/
theorem flagAndResult_resultLast_getV (flag result : Byte → Byte → Byte) (x y r : Reg) (s : State) :
    (flagAndResult .resultLast flag result x y s).getV r =
      if x = r then result (s.getV x) (s.getV y)
      else if vf = r then flag (s.getV x) (s.getV y) else s.getV r := by
  simp only [flagAndResult, getV_setV]

/-- In any order no register but the destination and VF changes. -/
theorem flagAndResult_getV_of_ne (ord : Config.VfOrder) (flag result : Byte → Byte → Byte) {x y r : Reg} (s : State)
    (hx : r ≠ x) (hf : r ≠ 15) : (flagAndResult ord flag result x y s).getV r = s.getV r := by
  cases ord <;> simp [flagAndResult, getV_setV, Ne.symm hx, Ne.symm hf]

/-- In any order VF ends as the flag of the operands, where it is no destination. -/
theorem flagAndResult_getV_flag (ord : Config.VfOrder) (flag result : Byte → Byte → Byte) {x y : Reg} (s : State)
    (hx : x ≠ 15) : (flagAndResult ord flag result x y s).getV 15 = flag (s.getV x) (s.getV y) := by
  cases ord <;> simp [flagAndResult, getV_setV, hx]

/-- In any order the destination ends as the result of the operands, where the instruction names no VF (R33). -/
theorem flagAndResult_getV_result (ord : Config.VfOrder) (flag result : Byte → Byte → Byte) {x y : Reg} (s : State)
    (hx : x ≠ 15) (hy : y ≠ 15) : (flagAndResult ord flag result x y s).getV x = result (s.getV x) (s.getV y) := by
  cases ord <;> simp [flagAndResult, getV_setV, Ne.symm hx, Ne.symm hy]

/-- What the destination ends as, in each order, VF as an operand included (the columns of U3). -/
theorem flagAndResult_getV_destination (ord : Config.VfOrder) (flag result : Byte → Byte → Byte) (x y : Reg) (s : State) :
    (flagAndResult ord flag result x y s).getV x =
      match ord with
      | .resultLast => result (s.getV x) (s.getV y)
      | .flagLast => if x = 15 then flag (s.getV x) (s.getV y) else result (s.getV x) (s.getV y)
      | .sequential | .sequentialSumKept =>
        result (if x = 15 then flag (s.getV x) (s.getV y) else s.getV x)
          (if y = 15 then flag (s.getV x) (s.getV y) else s.getV y) := by
  cases ord <;> simp [flagAndResult, getV_setV, eq_comm]

/-- In any order the flag and result writes change the registers and nothing else. -/
theorem flagAndResult_only_v (ord : Config.VfOrder) (flag result : Byte → Byte → Byte) (x y : Reg) (s : State) :
    flagAndResult ord flag result x y s = { s with v := (flagAndResult ord flag result x y s).v } := by
  cases ord <;> rfl

end Sys2Proof.Machine
end

