-- ==== Sys2Proof/Laws/Screen.lean ====
section
/-! SUPPORT. What drawing a sprite does to each cell: the loops of R171 against the cells they cover. -/

namespace Sys2Proof.Machine

/-- The column of a row's set bit. -/
def rowBit (vx : Nat) (row : Byte) (px : Nat) : Bool :=
  decide (vx ≤ px) && decide (px < vx + 8) && row.getLsbD (7 - (px - vx))

theorem Screen.cell_of_lt (sc : Screen) {px py : Nat} (hx : px < 64) (hy : py < 32) :
    sc.cell px py = sc[py][px] := by
  unfold Screen.cell
  rw [dif_pos (by omega)]

theorem Screen.cell_outside (sc : Screen) {px py : Nat} (h : ¬ (px ≤ 63 ∧ py ≤ 31)) : sc.cell px py = false := by
  unfold Screen.cell
  rw [dif_neg h]

/-- Screens with equal cells are equal. -/
theorem Screen.ext_cell {a b : Screen} (h : ∀ px py, px < 64 → py < 32 → a.cell px py = b.cell px py) : a = b := by
  apply Vector.ext
  intro y hy
  apply Vector.ext
  intro x hx
  have := h x y hx hy
  rwa [Screen.cell_of_lt _ hx hy, Screen.cell_of_lt _ hx hy] at this

/-- One XOR changes its own cell, when that is inside the buffer, and no other (R171, R172). -/
theorem xorPixel_cell (qx qy px py : Nat) (acc : Screen × Bool) :
    (xorPixel qx qy acc).1.cell px py =
      if qx = px ∧ qy = py ∧ px ≤ 63 ∧ py ≤ 31 then !acc.1.cell px py else acc.1.cell px py := by
  unfold xorPixel
  by_cases hq : qx ≤ 63 ∧ qy ≤ 31
  · rw [dif_pos hq]
    by_cases hp : px ≤ 63 ∧ py ≤ 31
    · rw [Screen.cell_of_lt _ (by omega) (by omega), Screen.cell_of_lt _ (by omega) (by omega)]
      by_cases hy : qy = py
      · subst hy
        by_cases hx : qx = px
        · subst hx
          simp [hp]
        · simp [hx]
      · simp [hy]
    · rw [Screen.cell_outside _ hp, Screen.cell_outside _ hp]
      simp [hp]
  · rw [dif_neg hq]
    by_cases hp : px ≤ 63 ∧ py ≤ 31
    · rw [if_neg (by omega)]
    · rw [if_neg (by omega)]

/-- One XOR collides exactly when its cell, inside the buffer, was set. -/
theorem xorPixel_collision (qx qy : Nat) (acc : Screen × Bool) :
    (xorPixel qx qy acc).2 = (acc.2 || acc.1.cell qx qy) := by
  unfold xorPixel Screen.cell
  split <;> simp

/-- One step of a row's loop over columns. -/
def rowStep (px py : Nat) (row : Byte) (a : Screen × Bool) (col : Nat) : Screen × Bool :=
  if row.getLsbD (7 - col) then xorPixel (px + col) py a else a

theorem drawRow_foldl (vx py : Nat) (row : Byte) (n : Nat) (acc : Screen × Bool) :
    (∀ px qy, ((List.range n).foldl (rowStep vx py row) acc).1.cell px qy =
      (acc.1.cell px qy ^^ (decide (qy = py) && decide (vx ≤ px) && decide (px < vx + n) &&
        row.getLsbD (7 - (px - vx)) && decide (px ≤ 63) && decide (qy ≤ 31)))) ∧
    (((List.range n).foldl (rowStep vx py row) acc).2 = true ↔
      acc.2 = true ∨ ∃ px, vx ≤ px ∧ px < vx + n ∧ row.getLsbD (7 - (px - vx)) = true ∧ acc.1.cell px py = true) := by
  induction n with
  | zero =>
    refine ⟨fun px qy => ?_, ?_⟩
    · rcases Nat.lt_or_ge px vx with h | h
      · simp [show ¬ vx ≤ px by omega]
      · simp [show ¬ px < vx by omega]
    · constructor
      · exact .inl
      · rintro (h | ⟨px, h1, h2, -⟩)
        · exact h
        · omega
  | succ n ih =>
    obtain ⟨ihc, ihf⟩ := ih
    rw [List.range_succ, List.foldl_append, List.foldl_cons, List.foldl_nil]
    generalize (List.range n).foldl (rowStep vx py row) acc = mid at ihc ihf
    have hsame : mid.1.cell (vx + n) py = acc.1.cell (vx + n) py := by
      rw [ihc]
      simp
    unfold rowStep
    by_cases hbit : row.getLsbD (7 - n) = true
    · rw [if_pos hbit]
      refine ⟨fun px qy => ?_, ?_⟩
      · rw [xorPixel_cell, ihc]
        by_cases hpx : vx + n = px
        · subst hpx
          by_cases hq : py = qy
          · subst hq
            by_cases hb : vx + n ≤ 63 ∧ py ≤ 31
            · simp [hb, hbit]
            · rw [if_neg (by omega)]
              rcases not_and_or.mp hb with h | h <;> simp [h]
          · rw [if_neg (by tauto)]
            simp [Ne.symm hq]
        · rw [if_neg (by tauto)]
          have : decide (px < vx + n) = decide (px < vx + (n + 1)) := by
            simp only [decide_eq_decide]
            omega
          rw [this]
      · rw [xorPixel_collision, Bool.or_eq_true, hsame, ihf]
        constructor
        · rintro ((h | ⟨px, h1, h2, h3, h4⟩) | h)
          · exact .inl h
          · exact .inr ⟨px, h1, by omega, h3, h4⟩
          · exact .inr ⟨vx + n, by omega, by omega, by simpa using hbit, h⟩
        · rintro (h | ⟨px, h1, h2, h3, h4⟩)
          · exact .inl (.inl h)
          · by_cases hpx : px = vx + n
            · subst hpx
              exact .inr h4
            · exact .inl (.inr ⟨px, h1, by omega, h3, h4⟩)
    · rw [if_neg hbit]
      refine ⟨fun px qy => ?_, ?_⟩
      · rw [ihc]
        by_cases hpx : px = vx + n
        · subst hpx
          simp [hbit]
        · have : decide (px < vx + n) = decide (px < vx + (n + 1)) := by
            simp only [decide_eq_decide]
            omega
          rw [this]
      · rw [ihf]
        constructor
        · rintro (h | ⟨px, h1, h2, h3, h4⟩)
          · exact .inl h
          · exact .inr ⟨px, h1, by omega, h3, h4⟩
        · rintro (h | ⟨px, h1, h2, h3, h4⟩)
          · exact .inl h
          · refine .inr ⟨px, h1, ?_, h3, h4⟩
            rcases Nat.lt_or_ge px (vx + n) with h | h
            · exact h
            · have : px - vx = n := by omega
              rw [this] at h3
              exact absurd h3 hbit

/-- What one sprite row does to every cell, and when it collides. -/
theorem drawRow_spec (vx py : Nat) (row : Byte) (acc : Screen × Bool) :
    (∀ px qy, (drawRow vx py row acc).1.cell px qy =
      (acc.1.cell px qy ^^ (decide (qy = py) && rowBit vx row px && decide (px ≤ 63) && decide (qy ≤ 31)))) ∧
    ((drawRow vx py row acc).2 = true ↔
      acc.2 = true ∨ ∃ px, rowBit vx row px = true ∧ acc.1.cell px py = true) := by
  have h := drawRow_foldl vx py row 8 acc
  refine ⟨fun px qy => ?_, ?_⟩
  · rw [show drawRow vx py row acc = (List.range 8).foldl (rowStep vx py row) acc from rfl, h.1]
    simp only [rowBit, Bool.and_assoc]
  · rw [show drawRow vx py row acc = (List.range 8).foldl (rowStep vx py row) acc from rfl, h.2]
    simp only [rowBit, Bool.and_eq_true, decide_eq_true_eq, and_assoc]

theorem spriteBit_cons (vx vy : Nat) (row : Byte) (rows : List Byte) (px py : Nat) :
    spriteBit vx vy (row :: rows) px py =
      ((decide (py = vy) && rowBit vx row px) || spriteBit vx (vy + 1) rows px py) := by
  unfold spriteBit rowBit
  by_cases h : py = vy
  · subst h
    simp
  · by_cases h' : vy + 1 ≤ py
    · have e1 : py - vy = (py - (vy + 1)) + 1 := by omega
      have e2 : decide (py < vy + (row :: rows).length) = decide (py < vy + 1 + rows.length) := by
        simp only [List.length_cons, decide_eq_decide]
        omega
      rw [e1, List.getD_cons_succ, e2]
      simp [h, h', show vy ≤ py by omega]
    · simp [h, h', show ¬ vy ≤ py by omega]

theorem spriteBit_above (vx vy : Nat) (rows : List Byte) (px py : Nat) (h : py < vy) :
    spriteBit vx vy rows px py = false := by
  unfold spriteBit
  simp [show ¬ vy ≤ py by omega]

/-- What drawing the rows of a sprite does to every cell, and when it collides: each cell under a set bit inside the
buffer is flipped, and the flag rises exactly when one of them was set. -/
theorem drawRows_spec (vx vy : Nat) (rows : List Byte) (acc : Screen × Bool) :
    (∀ px py, (drawRows vx vy rows acc).1.cell px py =
      (acc.1.cell px py ^^ (spriteBit vx vy rows px py && decide (px ≤ 63) && decide (py ≤ 31)))) ∧
    ((drawRows vx vy rows acc).2 = true ↔
      acc.2 = true ∨ ∃ px py, spriteBit vx vy rows px py = true ∧ acc.1.cell px py = true) := by
  induction rows generalizing vy acc with
  | nil =>
    have hno : ∀ px py, spriteBit vx vy [] px py = false := by
      intro px py
      unfold spriteBit
      rcases Nat.lt_or_ge py vy with h | h
      · simp [show ¬ vy ≤ py by omega]
      · simp [show ¬ py < vy by omega]
    simp [drawRows, hno]
  | cons row rows ih =>
    obtain ⟨ihc, ihf⟩ := ih (vy + 1) (drawRow vx vy row acc)
    obtain ⟨hc, hf⟩ := drawRow_spec vx vy row acc
    rw [drawRows]
    refine ⟨fun px py => ?_, ?_⟩
    · rw [ihc, hc, spriteBit_cons]
      by_cases h : py = vy
      · subst h
        rw [spriteBit_above vx (py + 1) rows px py (by omega)]
        simp
      · simp [h]
    · rw [ihf, hf]
      constructor
      · rintro ((h | ⟨px, h1, h2⟩) | ⟨px, py, h1, h2⟩)
        · exact .inl h
        · exact .inr ⟨px, vy, by rw [spriteBit_cons]; simp [h1], h2⟩
        · have hpy : py ≠ vy := by
            rintro rfl
            rw [spriteBit_above _ _ _ _ _ (by omega)] at h1
            cases h1
          refine .inr ⟨px, py, by rw [spriteBit_cons, h1]; simp, ?_⟩
          rw [hc] at h2
          simpa [hpy] using h2
      · rintro (h | ⟨px, py, h1, h2⟩)
        · exact .inl (.inl h)
        · rw [spriteBit_cons, Bool.or_eq_true, Bool.and_eq_true, decide_eq_true_eq] at h1
          by_cases hpy : py = vy
          · subst hpy
            rcases h1 with ⟨-, h1⟩ | h1
            · exact .inl (.inr ⟨px, h1, h2⟩)
            · rw [spriteBit_above _ _ _ _ _ (by omega)] at h1
              cases h1
          · rcases h1 with ⟨h0, -⟩ | h1
            · exact absurd h0 hpy
            · refine .inr ⟨px, py, h1, ?_⟩
              rw [hc]
              simp [hpy, h2]

@[simp] theorem clearScreen_cell (px py : Nat) : clearScreen.cell px py = false := by
  unfold Screen.cell clearScreen
  split <;> simp

end Sys2Proof.Machine
end

