-- ==== Sys2Proof/Laws/Step.lean ====
section
/-! SUPPORT. Said once: what a step can do, and what a meaning can do. Later proofs cite these instead of unfolding
`step`, `exec` or a meaning. -/

namespace Sys2Proof.Machine

/-! ### The step -/

theorem step_of_halted {s : State} (h : s.status = .halted) : step s = .next s := by
  unfold step
  rw [h]

theorem fetchDecode_eq (s : State) :
    fetchDecode s = if s.pc.toNat + 1 > 4095 then .error (.addressOutOfRange, 0x0000)
      else match decodeWith s.params.secKey (nextWord s) with
        | .ok i => .ok i
        | .error _ => .error (.decodeFailure, nextWord s) := rfl

theorem fetchDecode_of_fetches {s : State} {i : Instr} (h : fetches s i) : fetchDecode s = .ok i := by
  rw [fetchDecode_eq, if_neg (by have := h.2.1; omega), h.2.2]

theorem step_of_fetches {s : State} {i : Instr} (h : fetches s i) : step s = finishCycle (exec i (advance s)) := by
  unfold step
  rw [h.1]
  simp only [fetchDecode_of_fetches h]

/-- Everything a step can do. -/
theorem step_cases (s : State) :
    (s.status = .halted ∧ step s = .next s) ∨
    (s.status = .run ∧ s.pc.toNat + 1 > 4095 ∧
      step s = .next (takeFault .addressOutOfRange s.pc 0x0000 (closeLoad s))) ∨
    (s.status = .run ∧ s.pc.toNat + 1 ≤ 4095 ∧ (∃ e, decodeWith s.params.secKey (nextWord s) = .error e) ∧
      step s = .next (takeFault .decodeFailure s.pc (nextWord s) (closeLoad s))) ∨
    (∃ i, fetches s i ∧ step s = finishCycle (exec i (advance s))) := by
  rcases hst : s.status with _ | _
  · by_cases hpc : s.pc.toNat + 1 > 4095
    · refine .inr (.inl ⟨rfl, hpc, ?_⟩)
      unfold step
      rw [hst]
      simp only [fetchDecode_eq, if_pos hpc]
    · rcases hd : decodeWith s.params.secKey (nextWord s) with e | i
      · refine .inr (.inr (.inl ⟨rfl, by omega, ⟨e, rfl⟩, ?_⟩))
        unfold step
        rw [hst]
        simp only [fetchDecode_eq, if_neg hpc, hd]
      · have hf : fetches s i := ⟨hst, by omega, hd⟩
        exact .inr (.inr (.inr ⟨i, hf, step_of_fetches hf⟩))
  · exact .inl ⟨rfl, step_of_halted hst⟩

theorem tickUnlessHalted_of_run {s : State} (h : s.status = .run) : tickUnlessHalted s = tick s := by
  unfold tickUnlessHalted
  rw [h]

theorem tickUnlessHalted_of_halted {s : State} (h : s.status = .halted) : tickUnlessHalted s = s := by
  unfold tickUnlessHalted
  rw [h]

/-- A run goes on from what its first step answers. -/
theorem run_of_step (M : Host.Core) (n : Nat) {s t : M.State} (h : M.step s = .next t) :
    M.run (n + 1) s = M.run n t := by
  simp only [Host.Core.run, h]

theorem core_run_succ {s t : State} (n : Nat) (h : step s = .next t) :
    Sys2Proof.core.run (n + 1) s = Sys2Proof.core.run n t := run_of_step core n h

/-! ### One equation per meaning that can fault -/

theorem exec_call (nnn : Addr12) (s : State) :
    exec (.call nnn) s = .next (if h : s.sp.val < 16 then
      { s with stack := s.stack.set s.sp.val s.pc, sp := ⟨s.sp.val + 1, by omega⟩, pc := zextAddr nnn }
      else raise .stackOverflow s) := by
  show execCall nnn s = _
  unfold execCall
  rcases push_cases s.pc s with ⟨h, e⟩ | ⟨h, e⟩
  · rw [e, dif_neg (by omega)]
  · rw [e, dif_pos h]

theorem exec_ret (s : State) :
    exec .ret s = .next (if h : 0 < s.sp.val then
      { s with sp := ⟨s.sp.val - 1, by omega⟩, pc := s.stack[s.sp.val - 1] }
      else raise .stackUnderflow s) := by
  show execRet s = _
  unfold execRet
  rcases pop_cases s with ⟨h, e⟩ | ⟨h, e⟩
  · rw [e, dif_neg (by omega)]
  · rw [e, dif_pos h]

theorem exec_skp (x : Reg) (s : State) :
    exec (.skp x) s = .next (match keyOf (s.getV x) with
      | some k => skipIf s.key[k] s
      | none => raise .keyIndexOutOfRange s) := by
  show execSkp x s = _
  unfold execSkp
  cases keyOf (s.getV x) <;> rfl

theorem exec_sknp (x : Reg) (s : State) :
    exec (.sknp x) s = .next (match keyOf (s.getV x) with
      | some k => skipIf (!s.key[k]) s
      | none => raise .keyIndexOutOfRange s) := by
  show execSknp x s = _
  unfold execSknp
  cases keyOf (s.getV x) <;> rfl

theorem exec_ldVxK (x : Reg) (s : State) :
    exec (.ldVxK x) s = .next (match firstKey s.key with
      | some k => s.setV x (BitVec.ofNat 8 k.val)
      | none => s.pcMinus2) := by
  show execLdVxK x s = _
  unfold execLdVxK
  cases firstKey s.key <;> rfl

/-- The coordinate registers as `DRW` reads them. -/
theorem coordinateState_getV (s : State) (r : Reg) :
    ((coordinateState s.params.vfOrder s).getV r).toNat = drwCoordinate s r := by
  unfold coordinateState drwCoordinate rowU3
  by_cases h : r = 15
  · subst h
    cases s.params.vfOrder <;> simp
  · cases s.params.vfOrder <;> simp [h, getV_setV, Ne.symm h]

/-- What `DRW` leaves when its rows are in range. -/
def drawn (x y : Reg) (n : Nat) (s : State) : Screen × Bool :=
  drawRows (drwCoordinate s x) (drwCoordinate s y) (s.mem.bytes s.i.toNat n) (s.screen, false)

theorem exec_drw (x y : Reg) (n : Nat) (s : State) :
    exec (.drw x y n) s = .next (if n = 0 ∨ s.i.toNat + n - 1 ≤ 4095 then
      { s with screen := (drawn x y n s).1 }.setV vf (flagByte (drawn x y n s).2)
      else raise .addressOutOfRange s) := by
  show execDrw x y n s = _
  unfold execDrw
  rw [memRead_eq]
  by_cases h : n = 0 ∨ s.i.toNat + n - 1 ≤ 4095
  · rw [if_pos h, if_pos h]
    simp only [drawSprite, coordinateState_getV]
    rfl
  · rw [if_neg h, if_neg h]

theorem exec_ldB (x : Reg) (s : State) :
    exec (.ldB x) s = .next (if s.i.toNat + 2 ≤ 4095 then
      { s with mem := s.mem.writeBytes s.i.toNat (bcdDigits (s.getV x)) } else raise .addressOutOfRange s) := by
  show execLdB x s = _
  unfold execLdB
  rw [memWrite_eq, length_bcdDigits]
  by_cases h : s.i.toNat + 2 ≤ 4095
  · rw [if_pos (by omega), if_pos h]
  · rw [if_neg (by omega), if_neg h]

theorem exec_storeRegs (x : Reg) (s : State) :
    exec (.storeRegs x) s = .next (if s.i.toNat + x.val ≤ 4095 then
      { s with mem := s.mem.writeBytes s.i.toNat (regRun s x) } else raise .addressOutOfRange s) := by
  show execStoreRegs x s = _
  unfold execStoreRegs
  rw [memWrite_eq, length_regRun]
  by_cases h : s.i.toNat + x.val ≤ 4095
  · rw [if_pos (by omega), if_pos h]
  · rw [if_neg (by omega), if_neg h]

theorem exec_loadRegs (x : Reg) (s : State) :
    exec (.loadRegs x) s = .next (if s.i.toNat + x.val ≤ 4095 then
      loadRun s 0 (s.mem.bytes s.i.toNat (x.val + 1)) else raise .addressOutOfRange s) := by
  show execLoadRegs x s = _
  unfold execLoadRegs
  rw [memRead_eq]
  by_cases h : s.i.toNat + x.val ≤ 4095
  · rw [if_pos (by omega), if_pos h]
  · rw [if_neg (by omega), if_neg h]

/-! ### What any meaning can do -/

/-- A meaning whose check fails raises its fault (R303, R307). -/
theorem exec_of_executeFault {i : Instr} {s : State} {c : Cause} (h : executeFault i s = some c) :
    exec i s = .next (raise c s) := by
  cases i
  case call nnn =>
    rw [exec_call]
    simp only [executeFault] at h
    split at h
    · cases h
      rw [dif_neg (by omega)]
    · cases h
  case ret =>
    rw [exec_ret]
    simp only [executeFault] at h
    split at h
    · cases h
      rw [dif_neg (by omega)]
    · cases h
  case skp x =>
    rw [exec_skp]
    simp only [executeFault] at h
    split at h
    · next hx =>
      cases h
      rw [keyOf_eq_none.mpr hx]
    · cases h
  case sknp x =>
    rw [exec_sknp]
    simp only [executeFault] at h
    split at h
    · next hx =>
      cases h
      rw [keyOf_eq_none.mpr hx]
    · cases h
  case drw x y n =>
    rw [exec_drw]
    simp only [executeFault] at h
    split at h
    · cases h
      rw [if_neg (by omega)]
    · cases h
  case ldB x =>
    rw [exec_ldB]
    simp only [executeFault] at h
    split at h
    · cases h
      rw [if_neg (by omega)]
    · cases h
  case storeRegs x =>
    rw [exec_storeRegs]
    simp only [executeFault] at h
    split at h
    · cases h
      rw [if_neg (by omega)]
    · cases h
  case loadRegs x =>
    rw [exec_loadRegs]
    simp only [executeFault] at h
    split at h
    · cases h
      rw [if_neg (by omega)]
    · cases h
  all_goals cases h

/-- A meaning whose check holds answers a state with the control and record fields of the state before: no meaning
reads or writes them. -/
theorem exec_of_no_executeFault {i : Instr} {s : State} (h : executeFault i s = none) :
    ∃ t, exec i s = .next t ∧ t.status = s.status ∧ t.fcause = s.fcause ∧ t.fpc = s.fpc ∧ t.fop = s.fop ∧
      t.key = s.key ∧ t.loadOpen = s.loadOpen ∧ t.params = s.params := by
  cases i
  case call nnn =>
    rw [exec_call]
    refine ⟨_, rfl, ?_⟩
    simp only [executeFault] at h
    have := s.sp.isLt
    rw [dif_pos (by split at h <;> [cases h; omega])]
    simp
  case ret =>
    rw [exec_ret]
    refine ⟨_, rfl, ?_⟩
    simp only [executeFault] at h
    rw [dif_pos (by split at h <;> [cases h; omega])]
    simp
  case seByte | sneByte | seReg | sneReg =>
    refine ⟨_, rfl, ?_⟩
    rw [skipIf_eq]
    simp
  case skp x =>
    rw [exec_skp]
    refine ⟨_, rfl, ?_⟩
    simp only [executeFault] at h
    rcases hk : keyOf (s.getV x) with _ | k
    · rw [if_pos (keyOf_eq_none.mp hk)] at h
      cases h
    · simp only [skipIf_eq]
      simp
  case sknp x =>
    rw [exec_sknp]
    refine ⟨_, rfl, ?_⟩
    simp only [executeFault] at h
    rcases hk : keyOf (s.getV x) with _ | k
    · rw [if_pos (keyOf_eq_none.mp hk)] at h
      cases h
    · simp only [skipIf_eq]
      simp
  case ldVxK x =>
    rw [exec_ldVxK]
    refine ⟨_, rfl, ?_⟩
    split <;> simp
  case rnd x kk =>
    refine ⟨_, rfl, ?_⟩
    rw [rndSampled_only_input]
    simp
  case drw x y n =>
    rw [exec_drw]
    refine ⟨_, rfl, ?_⟩
    simp only [executeFault] at h
    rw [if_pos (by split at h <;> [cases h; omega])]
    simp
  case ldB x =>
    rw [exec_ldB]
    refine ⟨_, rfl, ?_⟩
    simp only [executeFault] at h
    rw [if_pos (by split at h <;> [cases h; omega])]
    simp
  case storeRegs x =>
    rw [exec_storeRegs]
    refine ⟨_, rfl, ?_⟩
    simp only [executeFault] at h
    rw [if_pos (by split at h <;> [cases h; omega])]
    simp
  case loadRegs x =>
    rw [exec_loadRegs]
    refine ⟨_, rfl, ?_⟩
    simp only [executeFault] at h
    rw [if_pos (by split at h <;> [cases h; omega]), loadRun_only_v]
    simp
  case addReg | subReg | subnReg | shr | shl =>
    refine ⟨_, rfl, ?_⟩
    rw [flagAndResult_only_v]
    simp
  all_goals exact ⟨_, rfl, rfl, rfl, rfl, rfl, rfl, rfl, rfl⟩

/-- Everything an execution can do: it raises the one fault that is due, or it completes. -/
theorem exec_cases (i : Instr) (s : State) :
    (∃ c, executeFault i s = some c ∧ exec i s = .next (raise c s)) ∨
    (executeFault i s = none ∧ ∃ t, exec i s = .next t ∧ t.status = s.status ∧ t.fcause = s.fcause ∧ t.fpc = s.fpc ∧
      t.fop = s.fop ∧ t.key = s.key ∧ t.loadOpen = s.loadOpen ∧ t.params = s.params) := by
  rcases h : executeFault i s with _ | c
  · exact .inr ⟨rfl, exec_of_no_executeFault h⟩
  · exact .inl ⟨c, rfl, exec_of_executeFault h⟩

/-- The machine's configuration is fixed: no step writes it (R25). -/
theorem step_params {s t : State} (h : step s = .next t) : t.params = s.params := by
  rcases step_cases s with ⟨-, e⟩ | ⟨-, -, e⟩ | ⟨-, -, -, e⟩ | ⟨i, -, e⟩
  all_goals rw [e] at h
  · cases h
    rfl
  · cases h
    rfl
  · cases h
    rfl
  · rcases exec_cases i (advance s) with ⟨c, -, e⟩ | ⟨-, u, e, -, -, -, -, -, -, hp⟩
    all_goals
      rw [e, finishCycle] at h
      cases h
    · rfl
    · unfold tickUnlessHalted
      split <;> exact hp

/-- The execute-phase check does not depend on PC or on the load window. -/
@[simp] theorem executeFault_advance (i : Instr) (s : State) : executeFault i (advance s) = executeFault i s := by
  cases i <;> rfl

end Sys2Proof.Machine
end

