-- ==== Sys2Proof/Tests/Slice0.lean ====
section
/-! SUPPORT. Tests of the model and witnesses for the hypotheses of the statements. Every expected result is from the
spec: the words and states of 95_test_vectors.md (its id is in the comment) or the encodings of 30_encoding.md. -/

namespace Sys2Proof.Tests

open Sys2Proof.Machine

/-! ### Helpers -/

/-- The state after reset with the word at 0x200. -/
def at200 (w : Nat) : State := State.reset.withFetchWord 16 w

/-- Write bytes into memory, for a start state. -/
def poke (a : Nat) (bs : List Byte) (s : State) : State := { s with mem := s.mem.writeBytes a bs }

/-- Set one cell of the screen, for a start state. -/
def setPixel (px py : Nat) (s : State) : State := { s with screen := (xorPixel px py (s.screen, false)).1 }

/-- Press one key, for a start state. -/
def pressed (k : Fin 16) (s : State) : State := { s with key := s.key.set k true }

/-- One cycle answers a next state, and it satisfies `p`. -/
def cycle (s : State) (p : State → Bool) : Bool :=
  match step s with
  | .next t => p t
  | .fault _ | .refused _ => false

/-- One host operation answers a next state, and it satisfies `p`. -/
def host (op : HostOp) (s : State) (p : State → Bool) : Bool :=
  match hostStep op s with
  | .next t => p t
  | .fault _ | .refused _ => false

/-- HALTED at the fetch address 0x200 with this record, timers as before. -/
def haltedAt200 (code : Nat) (word : Word) (t : State) : Bool :=
  t.status == .halted && t.fcause.code == code && t.fpc == 0x0200 && t.fop == word && t.pc == 0x0200

/-- The cells at these (column, row) pairs. -/
def cells (ps : List (Nat × Nat)) (t : State) : List Bool := ps.map fun p => t.screen.cell p.1 p.2

/-! ### WellFormed: each check refuses an ill-formed term -/

theorem test_wf_refuses_height_16 : (Instr.drw 0 0 16).wf = false := by decide
theorem test_wf_accepts_height_15 : (Instr.drw 0 0 15).wf = true := by decide

/-! ### Decoding: one word of every constructor, from 30_encoding.md R64 to R68 -/

theorem test_decode_cls : decodeWord 0x00E0 = .ok .cls := by decide
theorem test_decode_ret : decodeWord 0x00EE = .ok .ret := by decide
theorem test_decode_jp : decodeWord 0x1ABC = .ok (.jp 0xABC) := by decide
theorem test_decode_call : decodeWord 0x2ABC = .ok (.call 0xABC) := by decide
theorem test_decode_seByte : decodeWord 0x3142 = .ok (.seByte 1 0x42) := by decide
theorem test_decode_sneByte : decodeWord 0x4142 = .ok (.sneByte 1 0x42) := by decide
theorem test_decode_seReg : decodeWord 0x5121 = .ok (.seReg 1 2) := by decide
theorem test_decode_ldByte : decodeWord 0x6102 = .ok (.ldByte 1 0x02) := by decide
theorem test_decode_addByte : decodeWord 0x7105 = .ok (.addByte 1 0x05) := by decide
theorem test_decode_ldReg : decodeWord 0x8120 = .ok (.ldReg 1 2) := by decide
theorem test_decode_orReg : decodeWord 0x8121 = .ok (.orReg 1 2) := by decide
theorem test_decode_andReg : decodeWord 0x8122 = .ok (.andReg 1 2) := by decide
theorem test_decode_xorReg : decodeWord 0x8123 = .ok (.xorReg 1 2) := by decide
theorem test_decode_addReg : decodeWord 0x8124 = .ok (.addReg 1 2) := by decide
theorem test_decode_subReg : decodeWord 0x8125 = .ok (.subReg 1 2) := by decide
theorem test_decode_shr : decodeWord 0x8176 = .ok (.shr 1) := by decide
theorem test_decode_subnReg : decodeWord 0x8127 = .ok (.subnReg 1 2) := by decide
theorem test_decode_shl : decodeWord 0x817E = .ok (.shl 1) := by decide
theorem test_decode_sneReg : decodeWord 0x912F = .ok (.sneReg 1 2) := by decide
theorem test_decode_ldI : decodeWord 0xAFFE = .ok (.ldI 0xFFE) := by decide
theorem test_decode_jpV0 : decodeWord 0xBABC = .ok (.jpV0 0xABC) := by decide
theorem test_decode_rnd : decodeWord 0xC30F = .ok (.rnd 3 0x0F) := by decide
theorem test_decode_drw : decodeWord 0xD12F = .ok (.drw 1 2 15) := by decide
theorem test_decode_skp : decodeWord 0xE19E = .ok (.skp 1) := by decide
theorem test_decode_sknp : decodeWord 0xE1A1 = .ok (.sknp 1) := by decide
theorem test_decode_ldVxDt : decodeWord 0xF307 = .ok (.ldVxDt 3) := by decide
theorem test_decode_ldVxK : decodeWord 0xF30A = .ok (.ldVxK 3) := by decide
theorem test_decode_ldDtVx : decodeWord 0xF215 = .ok (.ldDtVx 2) := by decide
theorem test_decode_ldStVx : decodeWord 0xF218 = .ok (.ldStVx 2) := by decide
theorem test_decode_addI : decodeWord 0xF21E = .ok (.addI 2) := by decide
theorem test_decode_ldF : decodeWord 0xF129 = .ok (.ldF 1) := by decide
theorem test_decode_ldB : decodeWord 0xF133 = .ok (.ldB 1) := by decide
theorem test_decode_storeRegs : decodeWord 0xF255 = .ok (.storeRegs 2) := by decide
theorem test_decode_loadRegs : decodeWord 0xF165 = .ok (.loadRegs 1) := by decide

/-- T07: bits that are not examined. -/
theorem test_decode_unexamined : decodeWord 0x0AE0 = .ok .cls ∧ decodeWord 0x07EE = .ok .ret := by decide

/-- T03, T04, T05, T08: illegal words, and what SECKEY_0E = low_nibble changes. -/
theorem test_decode_illegal :
    decodeWord 0x0000 = .error (.group0 0x0000) ∧ decodeWord 0x8128 = .error (.group8 0x8128) ∧
    decodeWord 0x812F = .error (.group8 0x812F) ∧ decodeWord 0xE100 = .error (.groupE 0xE100) ∧
    decodeWord 0xF000 = .error (.groupF 0xF000) ∧ decodeWord 0xF1FF = .error (.groupF 0xF1FF) ∧
    decodeWith .lowNibble 0x0000 = .ok .cls ∧ decodeWith .lowNibble 0xE001 = .ok (.sknp 0) := by decide

/-- S1: the byte at the lower address is the high byte (R42). -/
theorem test_decode_bytes_big_endian : decodeBytes [0x61, 0x02] = .ok (.ldByte 1 0x02) := by decide
theorem test_decode_one_byte_is_truncated : decodeBytes [0x61] = .error .truncated := by decide

theorem test_encode_drw : encode (.drw 1 2 15) = 0xD12F ∧ encodeBytes (.ldByte 1 0x02) = [0x61, 0x02] := by decide

theorem test_decodeTableWord : decodeTableWord 16 0xD12F = some (.drw 1 2 15) ∧ decodeTableWord 16 0x8128 = none := by
  decide

/-- The table has 34 rows (R72) and no word of one row is selected by another. -/
theorem test_table_rows_disjoint : opcodeTable.length = 34 ∧
    opcodeTable.Pairwise (fun r q => r.pattern &&& (r.mask &&& q.mask) ≠ q.pattern &&& (r.mask &&& q.mask)) := by decide

/-- R110's and R171's spellings (R72). -/
theorem test_asm : (Instr.ldByte 1 0x02).asm = "LD V1,0x02" ∧ (Instr.storeRegs 1).asm = "LD [I],V1" ∧
    (Instr.drw 1 2 15).asm = "DRW V1,V2,15" := by decide

/-! ### One step of every instruction -/

/-- T60. -/
theorem test_cls : cycle (setPixel 3 3 (setPixel 63 31 ((at200 0x00E0).setV 15 0x01)))
    (fun t => cells [(3, 3), (63, 31)] t == [false, false] && t.getV 15 == 0x01 && t.pc == 0x0202) = true := by decide

/-- S6, the return at 0x20A's depth. -/
theorem test_ret : cycle { at200 0x00EE with sp := 2, stack := (State.reset.stack.set 0 0x0202).set 1 0x0206 }
    (fun t => t.pc == 0x0206 && t.sp == 1 && t.stack[1] == 0x0206) = true := by decide
/-- T43. -/
theorem test_ret_underflow : cycle (at200 0x00EE) (fun t => haltedAt200 4 0x00EE t && t.sp == 0) = true := by decide

/-- T30. -/
theorem test_jp : cycle (at200 0x1ABC) (fun t => t.pc == 0x0ABC) = true := by decide

/-- T40. -/
theorem test_call : cycle (at200 0x2300) (fun t => t.stack[0] == 0x0202 && t.sp == 1 && t.pc == 0x0300) = true := by decide
/-- T42. -/
theorem test_call_overflow : cycle { at200 0x2200 with sp := 16 } (fun t => haltedAt200 3 0x2200 t && t.sp == 16) = true := by
  decide

/-- T31. -/
theorem test_seByte : cycle ((at200 0x3142).setV 1 0x42) (fun t => t.pc == 0x0204) = true := by decide
theorem test_seByte_unequal : cycle ((at200 0x3142).setV 1 0x43) (fun t => t.pc == 0x0202) = true := by decide

/-- T32. -/
theorem test_sneByte : cycle ((at200 0x4142).setV 1 0x42) (fun t => t.pc == 0x0202) = true := by decide
theorem test_sneByte_unequal : cycle ((at200 0x4142).setV 1 0x43) (fun t => t.pc == 0x0204) = true := by decide

/-- T33. -/
theorem test_seReg : cycle (((at200 0x5120).setV 1 1).setV 2 2) (fun t => t.pc == 0x0202) = true := by decide
theorem test_seReg_same : cycle ((at200 0x5110).setV 1 7) (fun t => t.pc == 0x0204) = true := by decide

/-- S1. -/
theorem test_ldByte : cycle (at200 0x6102) (fun t => t.getV 1 == 0x02 && t.pc == 0x0202) = true := by decide
/-- T10. -/
theorem test_ldByte_vf : cycle (at200 0x6FAB) (fun t => t.getV 15 == 0xAB) = true := by decide

/-- T12. -/
theorem test_addByte : cycle (((at200 0x7105).setV 1 0xFE).setV 15 0x77)
    (fun t => t.getV 1 == 0x03 && t.getV 15 == 0x77) = true := by decide

/-- T11. -/
theorem test_ldReg : cycle ((at200 0x8120).setV 2 0x7F) (fun t => t.getV 1 == 0x7F && t.getV 2 == 0x7F) = true := by decide

/-- T20. -/
theorem test_orReg : cycle ((((at200 0x8121).setV 1 0xF3).setV 2 0x3C).setV 15 0x55)
    (fun t => t.getV 1 == 0xFF && t.getV 15 == 0x55) = true := by decide
theorem test_andReg : cycle ((((at200 0x8122).setV 1 0xF3).setV 2 0x3C).setV 15 0x55)
    (fun t => t.getV 1 == 0x30 && t.getV 15 == 0x55) = true := by decide
theorem test_xorReg : cycle ((((at200 0x8123).setV 1 0xF3).setV 2 0x3C).setV 15 0x55)
    (fun t => t.getV 1 == 0xCF && t.getV 15 == 0x55) = true := by decide

/-- T15: 255 is not a carry. -/
theorem test_addReg : cycle (((at200 0x8124).setV 1 0xFF).setV 15 0x01)
    (fun t => t.getV 1 == 0xFF && t.getV 15 == 0x00) = true := by decide
/-- T24a: the result overwrites the carry. -/
theorem test_addReg_vf : cycle (((at200 0x8F24).setV 15 0xF0).setV 2 0x20) (fun t => t.getV 15 == 0x10) = true := by decide

/-- T16: equal, no borrow. -/
theorem test_subReg : cycle (((at200 0x8125).setV 1 0x05).setV 2 0x05)
    (fun t => t.getV 1 == 0x00 && t.getV 15 == 0x01) = true := by decide
/-- T25b: the old VF is the operand. -/
theorem test_subReg_vf : cycle (((at200 0x81F5).setV 1 0x01).setV 15 0x02)
    (fun t => t.getV 1 == 0xFF && t.getV 15 == 0x00) = true := by decide

/-- T23: Vy plays no part. -/
theorem test_shr : cycle (((at200 0x8176).setV 1 0x03).setV 7 0xAA)
    (fun t => t.getV 1 == 0x01 && t.getV 15 == 0x01 && t.getV 7 == 0xAA) = true := by decide
/-- T24b. -/
theorem test_shr_vf : cycle ((at200 0x8F06).setV 15 0x07) (fun t => t.getV 15 == 0x03) = true := by decide

/-- T18. -/
theorem test_subnReg : cycle (((at200 0x8127).setV 1 0x05).setV 2 0x03)
    (fun t => t.getV 1 == 0xFE && t.getV 15 == 0x00) = true := by decide
/-- T19: the strict comparison fails on equal operands. -/
theorem test_subnReg_equal : cycle ((((at200 0x8127).setV 1 0x05).setV 2 0x05).setV 15 0x01)
    (fun t => t.getV 1 == 0x00 && t.getV 15 == 0x00) = true := by decide

/-- S4b. -/
theorem test_shl : cycle ((at200 0x810E).setV 1 0x81) (fun t => t.getV 1 == 0x02 && t.getV 15 == 0x01) = true := by decide
/-- T24c. -/
theorem test_shl_vf : cycle ((at200 0x8F0E).setV 15 0x81) (fun t => t.getV 15 == 0x02) = true := by decide

/-- T34. -/
theorem test_sneReg : cycle (((at200 0x9120).setV 1 1).setV 2 2) (fun t => t.pc == 0x0204) = true := by decide

/-- T44. -/
theorem test_ldI : cycle (at200 0xAFFF) (fun t => t.i == 0x0FFF) = true := by decide

/-- T35. -/
theorem test_jpV0 : cycle (((at200 0xB300).setV 0 0x04).setV 3 0x99) (fun t => t.pc == 0x0304) = true := by decide
/-- T36, its first cycle. -/
theorem test_jpV0_past_memory : cycle ((at200 0xBFFF).setV 0 0xFF) (fun t => t.pc == 0x10FE && t.status == .run) = true := by
  decide

/-- T80. -/
theorem test_rnd : host (.cycle 0xA7) (at200 0xC30F) (fun t => t.getV 3 == 0x07) = true := by decide
/-- T82: whatever byte is presented, the free one included. -/
theorem test_rnd_zero_mask : ∃ t, step (at200 0xC300) = .next t ∧ t.getV 3 = 0x00 := by
  refine ⟨_, rfl, ?_⟩
  show Config.rndByte 0 &&& 0x00 = 0x00
  exact BitVec.and_zero

/-- T67a. -/
theorem test_drw : cycle (setPixel 1 0 (setPixel 2 0 (poke 0x300 [0xC0] { at200 0xD011 with i := 0x0300 })))
    (fun t => cells [(0, 0), (1, 0), (2, 0), (3, 0)] t == [true, false, true, false] && t.getV 15 == 0x01) = true := by decide
/-- T69b: the old VF is the column. -/
theorem test_drw_vf : cycle (poke 0x300 [0x80] (({ at200 0xDF11 with i := 0x0300 }.setV 15 0x03).setV 1 0x02))
    (fun t => cells [(3, 2), (0, 2), (2, 2)] t == [true, false, false] && t.getV 15 == 0x00) = true := by decide

/-- T70. -/
theorem test_skp : cycle (pressed 5 ((at200 0xE19E).setV 1 0x05)) (fun t => t.pc == 0x0204) = true := by decide
/-- T74. -/
theorem test_skp_no_such_key : cycle ((at200 0xE19E).setV 1 0x10) (haltedAt200 5 0xE19E) = true := by decide

/-- T71. -/
theorem test_sknp : cycle ((at200 0xE1A1).setV 1 0x05) (fun t => t.pc == 0x0204) = true := by decide
/-- T74. -/
theorem test_sknp_no_such_key : cycle ((at200 0xE1A1).setV 1 0xFF) (haltedAt200 5 0xE1A1) = true := by decide

/-- T76, c3: read before the tick. -/
theorem test_ldVxDt : cycle { at200 0xF307 with dt := 0x02 } (fun t => t.getV 3 == 0x02 && t.dt == 0x01) = true := by decide

/-- T72. -/
theorem test_ldVxK_waits : cycle ({ at200 0xF30A with dt := 0x02 }.setV 3 0x77)
    (fun t => t.pc == 0x0200 && t.getV 3 == 0x77 && t.dt == 0x01) = true := by decide
/-- T73. -/
theorem test_ldVxK_lowest : cycle (pressed 9 (pressed 5 (at200 0xF30A)))
    (fun t => t.getV 3 == 0x05 && t.pc == 0x0202) = true := by decide

/-- T76, c2: three written, ticked once. -/
theorem test_ldDtVx : cycle ((at200 0xF215).setV 2 0x03) (fun t => t.dt == 0x02) = true := by decide
/-- T77. -/
theorem test_ldDtVx_zero : cycle { at200 0xF215 with dt := 0x09 } (fun t => t.dt == 0x00) = true := by decide

/-- T78. -/
theorem test_ldStVx : cycle ((at200 0xF218).setV 2 0x01) (fun t => t.st == 0x00) = true := by decide

/-- T46. -/
theorem test_addI : cycle (({ at200 0xF21E with i := 0xFFFF }.setV 2 0x02).setV 15 0x09)
    (fun t => t.i == 0x0001 && t.getV 15 == 0x09) = true := by decide
/-- T47. -/
theorem test_addI_past_memory : cycle ({ at200 0xF21E with i := 0x0FFF }.setV 2 0x01)
    (fun t => t.i == 0x1000 && t.status == .run) = true := by decide

/-- S9 as 90_conflicts.md C8 resolves it. -/
theorem test_ldF : cycle ((at200 0xF129).setV 1 0x0A) (fun t => t.i == 0x0082) = true := by decide
/-- T51. -/
theorem test_ldF_high_nibble : cycle ((at200 0xF129).setV 1 0x1A) (fun t => t.i == 0x0082) = true := by decide

/-- T53a. -/
theorem test_ldB : cycle ({ at200 0xF133 with i := 0x0FFD }.setV 1 0xFF)
    (fun t => t.mem.bytes 0xFFD 3 == [0x02, 0x05, 0x05] && t.status == .run) = true := by decide
/-- T53b. -/
theorem test_ldB_fault : cycle ({ at200 0xF133 with i := 0x0FFE }.setV 1 0xFF)
    (fun t => haltedAt200 2 0xF133 t && t.mem.bytes 0xFFE 2 == [0x00, 0x00]) = true := by decide

/-- T54. -/
theorem test_storeRegs : cycle (((({ at200 0xF255 with i := 0x0400 }.setV 0 0x11).setV 1 0x22).setV 2 0x33).setV 3 0x44)
    (fun t => t.mem.bytes 0x400 4 == [0x11, 0x22, 0x33, 0x00] && t.i == 0x0400) = true := by decide
/-- T56b, with V[0] alone nonzero. -/
theorem test_storeRegs_fault : cycle ({ at200 0xFF55 with i := 0x0FF1 }.setV 0 0x10)
    (fun t => haltedAt200 2 0xFF55 t && t.mem.read 0xFF1 == 0x00) = true := by decide

/-- T55. -/
theorem test_loadRegs : cycle (poke 0x400 [0x11, 0x22, 0x33, 0x44] ({ at200 0xF265 with i := 0x0400 }.setV 3 0x99))
    (fun t => t.getV 0 == 0x11 && t.getV 1 == 0x22 && t.getV 2 == 0x33 && t.getV 3 == 0x99 && t.i == 0x0400) = true := by
  decide
/-- T57: the font is readable data. -/
theorem test_loadRegs_font : cycle { at200 0xF065 with i := 0x0050 } (fun t => t.getV 0 == 0xF0) = true := by decide

/-! ### Fetch, faults, reset, host -/

/-- T84: no tick in a faulting cycle. -/
theorem test_fetch_fault : cycle { State.reset with pc := 0x0FFF, dt := 0x05 } (fun t => t.status == .halted &&
    t.fcause.code == 2 && t.fpc == 0x0FFF && t.fop == 0x0000 && t.pc == 0x0FFF && t.dt == 0x05) = true := by decide
/-- T85, its first cycle. -/
theorem test_fetch_last_word : cycle (poke 0xFFE [0x61, 0x07] { State.reset with pc := 0x0FFE })
    (fun t => t.getV 1 == 0x07 && t.pc == 0x1000 && t.status == .run) = true := by decide
/-- T86. -/
theorem test_decode_fault : cycle { at200 0xF0FF with dt := 0x05, st := 0x03 }
    (fun t => haltedAt200 1 0xF0FF t && t.dt == 0x05 && t.st == 0x03) = true := by decide
/-- T88. -/
theorem test_reset_runs_into_zero : cycle State.reset (haltedAt200 1 0x0000) = true := by decide
/-- T38: an odd PC is legal. -/
theorem test_odd_pc : cycle (poke 0x203 [0x61, 0x07] { State.reset with pc := 0x0203 })
    (fun t => t.getV 1 == 0x07 && t.pc == 0x0205) = true := by decide

/-- T89. -/
theorem test_reset_memory : State.reset.mem.read 0x050 = 0xF0 ∧ State.reset.mem.read 0x09F = 0x80 ∧
    State.reset.mem.read 0x04F = 0x00 ∧ State.reset.mem.read 0x0A0 = 0x00 := by decide

/-- R402: the bytes at 0x200, PC unchanged. -/
theorem test_load : host (.load [0x22, 0x00]) State.reset (fun t => t.mem == [(0x200, 0x22)] && t.pc == 0x0200) = true := by
  decide

/-- R32: the snapshot is replaced, not added to: key 5 is released. HALTED and an open `load` are no bar. -/
theorem test_setKeypad : host (.setKeypad (pressed 9 State.reset).key) (pressed 5 State.reset)
      (fun t => t == pressed 9 State.reset && t.loadOpen) = true ∧
    host (.setKeypad (pressed 9 State.reset).key) { State.reset with status := .halted, fcause := .decodeFailure }
      (fun t => t.key[9] && !t.key[5] && t.status == .halted) = true := by decide

/-- R401: `load` follows `reset`, also of a core that has run. -/
theorem test_reset_opens_load : host .reset { State.reset with loadOpen := false } (fun t => t.loadOpen) = true := by decide

/-- R32: what `read_status` shows of T88's wreck. -/
theorem test_read_status : cycle State.reset (fun t => readStatus t == ⟨.halted, 1, 0x0200, 0x0000, 0x00, 0x00⟩) = true := by
  decide

/-! ### The other configurations (00_scope.md R6) -/

/-- The state after reset of another configuration, with the word at 0x200. -/
def at200With (p : Config.Params) (w : Nat) : State := (State.resetWith p).withFetchWord 16 w

/-- T03 and T05: the words that SECKEY_0E = low_nibble makes legal run. -/
theorem test_low_nibble : cycle (setPixel 3 3 (at200With ⟨.lowNibble, .resultLast⟩ 0x0000))
      (fun t => cells [(3, 3)] t == [false] && t.pc == 0x0202 && t.status == .run) = true ∧
    cycle (at200With ⟨.lowNibble, .resultLast⟩ 0xE001) (fun t => t.pc == 0x0204 && t.status == .run) = true := by decide

/-- T24a, T24b, T24c under `flag_last`. -/
theorem test_flag_last :
    cycle (((at200With ⟨.lowByte, .flagLast⟩ 0x8F24).setV 15 0xF0).setV 2 0x20) (fun t => t.getV 15 == 0x01) = true ∧
    cycle ((at200With ⟨.lowByte, .flagLast⟩ 0x8F06).setV 15 0x07) (fun t => t.getV 15 == 0x01) = true ∧
    cycle ((at200With ⟨.lowByte, .flagLast⟩ 0x8F0E).setV 15 0x81) (fun t => t.getV 15 == 0x01) = true := by decide

/-- T24b, T24c, T25b, T69b under `sequential`. -/
theorem test_sequential :
    cycle ((at200With ⟨.lowByte, .sequential⟩ 0x8F06).setV 15 0x07) (fun t => t.getV 15 == 0x00) = true ∧
    cycle ((at200With ⟨.lowByte, .sequential⟩ 0x8F0E).setV 15 0x81) (fun t => t.getV 15 == 0x02) = true ∧
    cycle (((at200With ⟨.lowByte, .sequential⟩ 0x81F5).setV 1 0x01).setV 15 0x02)
      (fun t => t.getV 1 == 0x01 && t.getV 15 == 0x00) = true ∧
    cycle (poke 0x300 [0x80] (({ at200With ⟨.lowByte, .sequential⟩ 0xDF11 with i := 0x0300 }.setV 15 0x03).setV 1 0x02))
      (fun t => cells [(0, 2), (3, 2)] t == [true, false] && t.getV 15 == 0x00) = true := by decide

/-- T25a under both readings of U3's `ADD Vx,VF` row: the sum re-read (0xFF + carry 1), and the sum kept. -/
theorem test_sequential_sum :
    cycle (((at200With ⟨.lowByte, .sequential⟩ 0x81F4).setV 1 0xFF).setV 15 0x02)
      (fun t => t.getV 1 == 0x00 && t.getV 15 == 0x01) = true ∧
    cycle (((at200With ⟨.lowByte, .sequentialSumKept⟩ 0x81F4).setV 1 0xFF).setV 15 0x02)
      (fun t => t.getV 1 == 0x01 && t.getV 15 == 0x01) = true := by decide

/-- R25: the configuration is no state, and `reset` leaves it as it is. -/
theorem test_reset_keeps_configuration :
    host .reset (at200With ⟨.lowNibble, .flagLast⟩ 0x0000) (fun t => t == State.resetWith ⟨.lowNibble, .flagLast⟩) = true := by
  decide

/-! ### Memory -/

/-- Writing back what the address holds at reset removes the entry (log 8). -/
theorem test_memory_canonical : (Memory.write (Memory.write [] 0x050 0x01) 0x050 0xF0) = [] ∧
    (Memory.write (Memory.write [] 0x301 0x02) 0x300 0x01) = [(0x300, 0x01), (0x301, 0x02)] := by decide
theorem test_memory_wf : Memory.wf [(0x300, 0x01), (0x301, 0x02)] = true ∧ Memory.wf [(0x301, 0x02), (0x300, 0x01)] = false ∧
    Memory.wf [(0x300, 0x00)] = false ∧ Memory.wf [(0x1000, 0x01)] = false := by decide

/-! ### Witnesses: concrete states and operands that meet the hypotheses of each statement of Obligations.lean -/

/-- A word of another instruction is not fetched. -/
theorem not_fetches {s : State} {i j : Instr} (hj : decodeWith s.params.secKey (nextWord s) = .ok j) (hne : j ≠ i) : ¬ fetches s i := by
  intro h
  have := h.2.2
  rw [hj] at this
  exact hne (Except.ok.inj this)

/-- The core halted by T88. -/
def wreck : State := takeFault .decodeFailure 0x0200 0x0000 (closeLoad State.reset)

theorem witness_DecodeInvertsEncode : (Instr.drw 15 15 15).wf = true ∧ (Instr.loadRegs 15).wf = true := by decide

theorem witness_DecoderAcceptsExactlyTheTable : decodeWord 0x8FF6 = .ok (.shr 15) ∧ (Instr.shr 0).row ∈ opcodeTable ∧
    (Instr.shr 0).row.selects 0x8FF6 = true := by decide

theorem witness_LowNibbleKeyOnlyAddsWords : decodeWith .lowByte 0x00E0 = .ok .cls ∧
    ((0x0FF0 : Word).toNat / 4096 = 0x0 ∧ (0x0FF0 : Word).toNat % 16 = 0x0) ∧
    ((0x0FFE : Word).toNat / 4096 = 0x0 ∧ (0x0FFE : Word).toNat % 16 = 0xE) ∧
    ((0x0FF1 : Word).toNat / 4096 = 0x0 ∧ (0x0FF1 : Word).toNat % 16 ≠ 0x0 ∧ (0x0FF1 : Word).toNat % 16 ≠ 0xE) ∧
    ((0xE00E : Word).toNat / 4096 = 0xE ∧ (0xE00E : Word).toNat % 16 = 0xE) ∧
    ((0xE001 : Word).toNat / 4096 = 0xE ∧ (0xE001 : Word).toNat % 16 = 0x1) ∧
    ((0xE000 : Word).toNat / 4096 = 0xE ∧ (0xE000 : Word).toNat % 16 ≠ 0xE ∧ (0xE000 : Word).toNat % 16 ≠ 0x1) := by decide

theorem witness_StepRunsDecodedInstruction_stops : wreck.status = .halted ∧
    (let s := { State.reset with pc := 0x0FFF }; s.status = .run ∧ s.pc.toNat + 1 > 4095) ∧
    (let s := { State.reset with pc := 0x0FFE }
     s.status = .run ∧ s.pc.toNat + 1 ≤ 4095 ∧ decodeWith s.params.secKey (nextWord s) = .error (.group0 0x0000)) := by
  refine ⟨rfl, by decide, ?_⟩
  decide

/-- An instruction that completes, and one that halts the core. -/
theorem witness_StepRunsDecodedInstruction_runs : fetches (at200 0x6102) (.ldByte 1 0x02) ∧
    (∃ t, exec (.ldByte 1 0x02) { at200 0x6102 with pc := 0x0202, loadOpen := false } = .next t ∧ t.status = .run) ∧
    fetches (at200 0x00EE) .ret ∧
    (∃ t, exec .ret { at200 0x00EE with pc := 0x0202, loadOpen := false } = .next t ∧ t.status = .halted) :=
  ⟨⟨rfl, by decide, by decide⟩, ⟨_, rfl, rfl⟩, ⟨rfl, by decide, by decide⟩, ⟨_, rfl, rfl⟩⟩

theorem witness_HaltedIsTerminal : wreck.status = .halted := rfl

/-- Each of the five faults is due somewhere, and none is due somewhere. -/
theorem witness_CycleFaultsExactlyWhenDue :
    dueFault { State.reset with pc := 0x0FFF } = some (.addressOutOfRange, 0x0000) ∧
    dueFault State.reset = some (.decodeFailure, 0x0000) ∧
    dueFault { at200 0x2200 with sp := 16 } = some (.stackOverflow, 0x2200) ∧
    dueFault (at200 0x00EE) = some (.stackUnderflow, 0x00EE) ∧
    dueFault ((at200 0xE19E).setV 1 0x10) = some (.keyIndexOutOfRange, 0xE19E) ∧
    dueFault { at200 0xD012 with i := 0x0FFF } = some (.addressOutOfRange, 0xD012) ∧
    dueFault { at200 0xD011 with i := 0x0FFF } = none ∧ (at200 0xD011).status = .run := by decide

theorem witness_ExecuteFaultsArePrecise :
    executeFault (.call 0x200) { State.reset with sp := 16 } = some .stackOverflow ∧
    executeFault .ret State.reset = some .stackUnderflow ∧
    executeFault (.sknp 1) (State.reset.setV 1 0x10) = some .keyIndexOutOfRange ∧
    executeFault (.drw 0 0 15) { State.reset with i := 0x0FF2 } = some .addressOutOfRange ∧
    executeFault (.ldB 0) { State.reset with i := 0x0FFE } = some .addressOutOfRange ∧
    executeFault (.storeRegs 15) { State.reset with i := 0x0FF1 } = some .addressOutOfRange ∧
    executeFault (.loadRegs 0) { State.reset with i := 0x1000 } = some .addressOutOfRange := by decide

theorem inv_reset : State.reset.Inv :=
  ⟨rfl, by decide, by decide, fun _ => ⟨rfl, rfl, rfl⟩, nofun, fun _ => rfl⟩

theorem inv_wreck : wreck.Inv :=
  ⟨rfl, by decide, by decide, nofun, fun _ => ⟨by decide, rfl, rfl⟩, nofun⟩

/-- A running core whose instruction completes, a running core about to halt, a halted core. -/
theorem witness_EveryStepKeepsInvariant :
    (∃ s t : State, s.Inv ∧ step s = .next t ∧ s.status = .run ∧ t.status = .run ∧ t.pc = 0x0202) ∧
    (State.reset.Inv ∧ step State.reset = .next wreck) ∧ (wreck.Inv ∧ step wreck = .next wreck) :=
  ⟨⟨{ at200 0x6102 with loadOpen := false }, _,
      ⟨by decide, by decide, by decide, fun _ => ⟨rfl, rfl, rfl⟩, nofun, nofun⟩, rfl, rfl, rfl, rfl⟩,
    ⟨inv_reset, rfl⟩, ⟨inv_wreck, rfl⟩⟩

theorem witness_EveryHostOperationKeepsInvariant : State.reset.Inv ∧
    (∃ t, hostStep (.load [0x22, 0x00]) State.reset = .next t) ∧
    (∃ t, hostStep (.setKeypad (Vector.replicate 16 true)) State.reset = .next t) ∧
    (∃ t, hostStep (.cycle 0xA7) State.reset = .next t) ∧ hostStep .reset wreck = .next State.reset :=
  ⟨inv_reset, ⟨_, rfl⟩, ⟨_, rfl⟩, ⟨_, rfl⟩, rfl⟩

theorem witness_ReachableStatesMeetInvariant : Reachable State.reset ∧ Reachable wreck ∧
    Reachable (State.resetWith ⟨.lowNibble, .sequential⟩) :=
  ⟨.reset defaultParams, .step (.reset defaultParams) rfl, .reset _⟩

/-- No fault is due at the last values before each limit; `CALL` writes no register and not I. -/
theorem witness_InstructionsWriteOnlyTheirTableRow :
    executeFault (.call 0x200) { State.reset with sp := 15 } = none ∧
    executeFault .ret { State.reset with sp := 1 } = none ∧ executeFault (.skp 1) (State.reset.setV 1 0x0F) = none ∧
    executeFault (.drw 0 0 15) { State.reset with i := 0x0FF1 } = none ∧
    executeFault (.drw 0 0 0) { State.reset with i := 0xFFFF } = none ∧
    executeFault (.ldB 0) { State.reset with i := 0x0FFD } = none ∧
    executeFault (.loadRegs 15) { State.reset with i := 0x0FF0 } = none ∧ instrWritesReg (.call 0x200) 0 = false ∧
    .index ∉ instrWrites (.call 0x200) := by decide

theorem witness_FlagIsZeroOrOne :
    (executeFault (.addReg 1 15) State.reset = none ∧ (∃ t, exec (.addReg 1 15) State.reset = .next t) ∧ (1 : Reg) ≠ 15) ∧
    (executeFault (.drw 15 0 1) State.reset = none ∧ ∃ t, exec (.drw 15 0 1) State.reset = .next t) :=
  ⟨⟨rfl, ⟨_, rfl⟩, by decide⟩, ⟨by decide, ⟨_, rfl⟩⟩⟩

theorem witness_TimersTickOncePerCompletedCycle :
    (fetches (at200 0xF215) (.ldDtVx 2) ∧ dueFault (at200 0xF215) = none) ∧
    (fetches (at200 0x6102) (.ldByte 1 0x02) ∧ dueFault (at200 0x6102) = none) ∧
    wreck.status = .halted ∧ dueFault State.reset ≠ none :=
  ⟨⟨⟨rfl, by decide, by decide⟩, by decide⟩, ⟨⟨rfl, by decide, by decide⟩, by decide⟩, rfl, by decide⟩

theorem witness_ScreenReachesOnlyTheCollisionFlag : ∀ x y n, ¬ fetches (at200 0x6102) (.drw x y n) :=
  fun _ _ _ => not_fetches (j := .ldByte 1 0x02) (by decide) nofun

theorem witness_RandomInputReachesOnlyTheRndDestination : ∀ x kk, ¬ fetches (at200 0x6102) (.rnd x kk) :=
  fun _ _ => not_fetches (j := .ldByte 1 0x02) (by decide) nofun

theorem witness_KeypadReadOnlyByKeyInstructions : ∀ x, ¬ fetches (at200 0x6102) (.skp x) ∧
    ¬ fetches (at200 0x6102) (.sknp x) ∧ ¬ fetches (at200 0x6102) (.ldVxK x) :=
  fun _ => ⟨not_fetches (j := .ldByte 1 0x02) (by decide) nofun, not_fetches (j := .ldByte 1 0x02) (by decide) nofun,
    not_fetches (j := .ldByte 1 0x02) (by decide) nofun⟩

theorem witness_IdleLoopsChangeOnlyTheTimers :
    (fetches (at200 0x1200) (.jp 0x200) ∧ (0x200 : Addr12).toNat = (at200 0x1200).pc.toNat) ∧
    (fetches (at200 0xF30A) (.ldVxK 3) ∧ ∀ j : Fin 16, (at200 0xF30A).key[j] = false) :=
  ⟨⟨⟨rfl, by decide, by decide⟩, by decide⟩, ⟨⟨rfl, by decide, by decide⟩, by decide⟩⟩

/-- A run that ends at 0xFFF, whose last two bytes a core in another configuration executes; and P4's store, whose word
the default core executes. -/
theorem witness_StoredWordIsFetched_registers :
    (let s := ({ State.reset with i := 0x0FF0 }.setV 14 0xE0).setV 15 0x01
     s.i.toNat + (15 : Reg).val ≤ 4095 ∧ ∃ t, exec (.storeRegs 15) s = .next t ∧ ∃ u : State, u.mem = t.mem ∧
       u.status = .run ∧ u.pc.toNat + 1 ≤ 4095 ∧ u.pc.toNat = s.i.toNat + 14 ∧
       decodeWith u.params.secKey (wordOfBytes (s.getV (Fin.ofNat 16 14)) (s.getV (Fin.ofNat 16 15))) = .ok (.sknp 0)) ∧
    (let s := ({ State.reset with i := 0x0208 }.setV 0 0x6B).setV 1 0x2A
     s.i.toNat + (1 : Reg).val ≤ 4095 ∧ ∃ t, exec (.storeRegs 1) s = .next t ∧ ∃ u : State, u.mem = t.mem ∧
       u.status = .run ∧ u.pc.toNat + 1 ≤ 4095 ∧ u.pc.toNat = s.i.toNat ∧
       decodeWith u.params.secKey (wordOfBytes (s.getV (Fin.ofNat 16 0)) (s.getV (Fin.ofNat 16 1))) =
         .ok (.ldByte 11 0x2A)) :=
  ⟨⟨by decide, _, rfl, { State.resetWith ⟨.lowNibble, .flagLast⟩ with mem := _, pc := 0x0FFE }, rfl, rfl, by decide,
      by decide, by decide⟩,
    ⟨by decide, _, rfl, { State.reset with mem := _, pc := 0x0208 }, rfl, rfl, by decide, rfl, by decide⟩⟩

/-- Digits up to 0xFFF: the first is the immediate of a word that was there before, the last two are no word. -/
theorem witness_StoredWordIsFetched_digits :
    let s := poke 0xFFC [0x61] ({ State.reset with i := 0x0FFD }.setV 1 0xFF)
    s.i.toNat + 2 ≤ 4095 ∧ ∃ t, exec (.ldB 1) s = .next t ∧
      (∃ u : State, u.mem = t.mem ∧ u.status = .run ∧ u.pc.toNat + 1 ≤ 4095 ∧ u.pc.toNat + 1 = s.i.toNat ∧
        decodeWith u.params.secKey (wordOfBytes (s.mem.read 0xFFC) (BitVec.ofNat 8 (0xFF / 100))) = .ok (.ldByte 1 0x02)) ∧
      (∃ u : State, u.mem = t.mem ∧ u.status = .run ∧ u.pc.toNat + 1 ≤ 4095 ∧ u.pc.toNat = s.i.toNat + 1 ∧
        decodeWith u.params.secKey (wordOfBytes (BitVec.ofNat 8 (0xFF / 10 % 10)) (BitVec.ofNat 8 (0xFF % 10))) =
          .error (.group0 0x0505)) :=
  ⟨by decide, _, rfl, ⟨{ State.reset with mem := _, pc := 0x0FFC }, rfl, rfl, by decide, by decide, by decide⟩,
    ⟨{ State.reset with mem := _, pc := 0x0FFE }, rfl, rfl, by decide, by decide, by decide⟩⟩

theorem witness_CallPushesReturnAddress : ({ State.reset with sp := 15 } : State).sp.val < 16 ∧
    ({ State.reset with sp := 16 } : State).sp.val = 16 := by decide

theorem witness_RetPopsReturnAddress : ({ State.reset with sp := 16 } : State).sp.val = (15 : Fin 16).val + 1 ∧
    ({ State.reset with sp := 1 } : State).sp.val = (0 : Fin 16).val + 1 ∧ State.reset.sp.val = 0 := by decide

theorem witness_NestedCallsUnwind : State.reset.sp.val + (List.replicate 16 (0x200 : Addr12)).length ≤ 16 ∧
    ({ State.reset with sp := 13 } : State).sp.val + [(0x204 : Addr12), 0x208, 0x20C].length ≤ 16 := by decide

theorem witness_JpV0AddsV0 : (∃ t, exec (.jpV0 0xFFF) State.reset = .next t ∧ t.status = .run) ∧
    (State.reset.getV 0).toNat + (0xFFF : Addr12).toNat ≥ 0xFFF := ⟨⟨_, rfl, rfl⟩, by decide⟩

/-- The two ways to meet the condition on the result of AddRegSetsCarry, SubRegSetsNoBorrow, SubnRegSetsStrictlyGreater and
ShiftsSetTheBitShiftedOut: away from VF in any order, at VF in the default one. -/
theorem witness_flag_destination :
    ((14 : Reg) ≠ 15 ∧ (0 : Reg) ≠ 15 ∧ (State.resetWith ⟨.lowByte, .sequential⟩).params.vfOrder ≠ .resultLast) ∧
    State.reset.params.vfOrder = .resultLast := by decide

/-- Forms that do not name VF; the flag 0 and 1 of each row of U3, the equal operands of `SUB` and `SUBN` among them. -/
theorem witness_VfOrdersDifferOnlyAtVf :
    (namesVf (.addReg 14 0) = false ∧ namesVf (.drw 0 14 15) = false ∧ namesVf (.ldReg 15 15) = false) ∧
    (let s := ((State.resetWith ⟨.lowByte, .sequentialSumKept⟩).setV 15 0xFF).setV 1 0x01
     (s.getV 15).toNat = 255 ∧ (s.getV 1).toNat = 1 ∧ (if 255 + 1 > 255 then 1 else 0) = 1 ∧
     (if 255 ≥ 1 then 1 else 0) = 1 ∧ (if 1 > 255 then 1 else 0) = 0) ∧
    (let s := ((State.resetWith ⟨.lowNibble, .flagLast⟩).setV 15 0x02).setV 14 0x02
     (14 : Reg) ≠ 15 ∧ (s.getV 15).toNat = 2 ∧ (s.getV 14).toNat = 2 ∧ (if 2 ≥ 2 then 1 else 0) = 1 ∧
     (if 2 > 2 then 1 else 0) = 0 ∧ (if 2 + 2 > 255 then 1 else 0) = 0) := by decide

theorem witness_RndMasksThePresentedByte : ({ State.reset with rndIn := [0xA7, 0x01] } : State).rndIn = [0xA7, 0x01] ∧
    State.reset.rndIn = [] := ⟨rfl, rfl⟩

/-- No row; one row at 0xFFF; fifteen rows up to 0xFFF. -/
theorem witness_DrwFlipsCoveredCells : ((0 : Nat) = 0 ∨ (0xFFFF : Word).toNat + 0 - 1 ≤ 4095) ∧
    (0x0FFF : Word).toNat + 1 - 1 ≤ 4095 ∧ (0x0FF1 : Word).toNat + 15 - 1 ≤ 4095 := by decide

theorem witness_DrwTwiceRestoresTheScreen : (0 : Reg) ≠ 15 ∧ (14 : Reg) ≠ 15 ∧
    ({ State.reset with i := 0x0FF1 } : State).i.toNat + 15 - 1 ≤ 4095 := by decide

theorem witness_DrwFaultsPastMemory : (15 : Nat) ≤ 15 ∧
    ((15 : Nat) ≥ 1 ∧ ({ State.reset with i := 0x0FF2 } : State).i.toNat + 15 - 1 > 4095) ∧
    ((1 : Nat) ≥ 1 ∧ ({ State.reset with i := 0x1000 } : State).i.toNat + 1 - 1 > 4095) := by decide

theorem witness_KeySkips : ((State.reset.setV 1 0x0F).getV 1).toNat = (15 : Fin 16).val ∧
    ((State.reset.setV 1 0x10).getV 1).toNat > 15 := by decide

/-- Keys 5 and 9, key 15 alone, no key. -/
theorem witness_KeyWaitTakesTheLeastKey :
    (let s := pressed 9 (pressed 5 State.reset); s.key[(5 : Fin 16)] = true ∧ ∀ j : Fin 16, j < 5 → s.key[j] = false) ∧
    (let s := pressed 15 State.reset; s.key[(15 : Fin 16)] = true ∧ ∀ j : Fin 16, j < 15 → s.key[j] = false) ∧
    ∀ k : Fin 16, State.reset.key[k] = false := by decide

theorem witness_TimerMoves : fetches (at200 0xF307) (.ldVxDt 3) ∧ fetches (at200 0xF215) (.ldDtVx 2) ∧
    fetches (at200 0xF218) (.ldStVx 2) :=
  ⟨⟨rfl, by decide, by decide⟩, ⟨rfl, by decide, by decide⟩, ⟨rfl, by decide, by decide⟩⟩

theorem witness_BcdStoresThreeDigits : ({ State.reset with i := 0x0FFD } : State).i.toNat + 2 ≤ 4095 ∧
    ({ State.reset with i := 0x0FFE } : State).i.toNat + 2 > 4095 := by decide

/-- The two clauses of the block transfers at their limit, for the longest and the shortest run. -/
theorem witness_StoreRegsStoresTheRun : ({ State.reset with i := 0x0FF0 } : State).i.toNat + (15 : Reg).val ≤ 4095 ∧
    ({ State.reset with i := 0x0FF1 } : State).i.toNat + (15 : Reg).val > 4095 ∧
    ({ State.reset with i := 0x0FFF } : State).i.toNat + (0 : Reg).val ≤ 4095 ∧
    ({ State.reset with i := 0x1000 } : State).i.toNat + (0 : Reg).val > 4095 := by decide

theorem witness_LoadRegsLoadsTheRun : ({ State.reset with i := 0x0FF0 } : State).i.toNat + (15 : Reg).val ≤ 4095 ∧
    ({ State.reset with i := 0x0FF1 } : State).i.toNat + (15 : Reg).val > 4095 ∧ (15 : Reg) ≤ 15 := by decide

theorem witness_StoreThenLoadRestoresRegisters :
    (let s := { State.reset with i := 0x0FF0 }
     s.i.toNat + (15 : Reg).val ≤ 4095 ∧ ∃ t, exec (.storeRegs 15) s = .next t ∧
       ∃ u : State, u.mem = t.mem ∧ u.i = s.i) := ⟨by decide, _, rfl, _, rfl, rfl⟩

theorem witness_LoadPlacesTheProgram :
    (State.reset.loadOpen = true ∧ (List.replicate 3584 (0xFF : Byte)).length ≤ 3584) ∧ wreck.loadOpen = false ∧
    (State.reset.loadOpen = true ∧ (List.replicate 3585 (0xFF : Byte)).length > 3584) := by
  refine ⟨⟨rfl, ?_⟩, rfl, rfl, ?_⟩ <;> rw [List.length_replicate]
  decide

theorem witness_HostCycleOffersItsByte : wreck.status = .halted ∧ fetches (at200 0xC30F) (.rnd 3 0x0F) ∧
    ∀ x kk, ¬ fetches (at200 0x6102) (.rnd x kk) :=
  ⟨rfl, ⟨rfl, by decide, by decide⟩, witness_RandomInputReachesOnlyTheRndDestination⟩

theorem witness_ParametersNeverChange : step State.reset = .next wreck ∧
    (∃ t, step (at200With ⟨.lowNibble, .sequential⟩ 0xE001) = .next t) ∧
    (∃ t, hostStep (.load [0x22, 0x00]) (State.resetWith ⟨.lowNibble, .sequential⟩) = .next t) :=
  ⟨rfl, ⟨_, rfl⟩, ⟨_, rfl⟩⟩

/-- Each row of R304's table at the first value past its limit. -/
theorem witness_FaultsReportTheirNumbers :
    (let s := { State.reset with pc := 0x0FFF }; s.status = .run ∧ s.pc.toNat + 1 > 4095) ∧
    (let s := { State.reset with pc := 0x0FFE }
     s.status = .run ∧ s.pc.toNat + 1 ≤ 4095 ∧ decodeWith s.params.secKey (nextWord s) = .error (.group0 0x0000)) ∧
    (let s := { at200 0x2200 with sp := 16 }; fetches s (.call 0x200) ∧ s.sp.val = 16) ∧
    (fetches (at200 0x00EE) .ret ∧ (at200 0x00EE).sp.val = 0) ∧
    (fetches ((at200 0xE19E).setV 1 0x10) (.skp 1) ∧ fetches ((at200 0xE1A1).setV 1 0x10) (.sknp 1) ∧
      (((at200 0xE1A1).setV 1 0x10).getV 1).toNat > 15) ∧
    (let s := { at200 0xD122 with i := 0x0FFF }; fetches s (.drw 1 2 2) ∧ (2 : Nat) ≥ 1 ∧ s.i.toNat + 2 - 1 > 4095) ∧
    (let s := { at200 0xF133 with i := 0x0FFE }; fetches s (.ldB 1) ∧ s.i.toNat + 2 > 4095) ∧
    (let s := { at200 0xFF55 with i := 0x0FF1 }; fetches s (.storeRegs 15) ∧ s.i.toNat + (15 : Reg).val > 4095) ∧
    (let s := { at200 0xF065 with i := 0x1000 }; fetches s (.loadRegs 0) ∧ s.i.toNat + (0 : Reg).val > 4095) := by
  refine ⟨?_, ?_, ⟨⟨rfl, ?_, ?_⟩, rfl⟩, ⟨⟨rfl, ?_, ?_⟩, rfl⟩, ⟨⟨rfl, ?_, ?_⟩, ⟨rfl, ?_, ?_⟩, ?_⟩, ⟨⟨rfl, ?_, ?_⟩, ?_⟩,
    ⟨⟨rfl, ?_, ?_⟩, ?_⟩, ⟨⟨rfl, ?_, ?_⟩, ?_⟩, ⟨⟨rfl, ?_, ?_⟩, ?_⟩⟩ <;> decide

/-- A running core with `load` open, and a halted one. -/
theorem witness_SetKeypadReplacesTheSnapshot :
    (∃ t, hostStep (.setKeypad (Vector.replicate 16 true)) State.reset = .next t ∧ t.loadOpen = true) ∧
    (∃ t, hostStep (.setKeypad (Vector.replicate 16 true)) wreck = .next t ∧ t.status = .halted) :=
  ⟨⟨_, rfl, rfl⟩, ⟨_, rfl, rfl⟩⟩

end Sys2Proof.Tests
end

/-! ## Control flow (40_control_flow.md): `JP addr` and the skips with a byte -/

namespace Sys2Proof.Machine

/-! ### A word written as a number has its format (R62) -/

theorem ofNat_eq_formatA (g : BitVec 4) (nnn : Addr12) :
    BitVec.ofNat 16 (g.toNat * 4096 + nnn.toNat) = formatA g nnn := by
  rw [← toNat_formatA, BitVec.ofNat_toNat, BitVec.setWidth_eq]

theorem ofNat_eq_formatXK (g : BitVec 4) (x : Reg) (kk : Byte) :
    BitVec.ofNat 16 (g.toNat * 4096 + x.val * 256 + kk.toNat) = formatXK g x kk := by
  rw [← toNat_formatXK, BitVec.ofNat_toNat, BitVec.setWidth_eq]

/-! ### Decoding (R64): the group nibble selects the arm, the other fields are the operands -/

theorem decodesTo_jp (nnn : Addr12) : decodesTo (formatA 0x1#4 nnn) (.jp nnn) := by
  intro key
  rw [decodeWith, fieldG_formatA, fieldNNN_formatA]
  rfl

theorem decodesTo_seByte (x : Reg) (kk : Byte) : decodesTo (formatXK 0x3#4 x kk) (.seByte x kk) := by
  intro key
  rw [decodeWith, fieldG_formatXK, fieldX_formatXK, fieldKK_formatXK]
  rfl

theorem decodesTo_sneByte (x : Reg) (kk : Byte) : decodesTo (formatXK 0x4#4 x kk) (.sneByte x kk) := by
  intro key
  rw [decodeWith, fieldG_formatXK, fieldX_formatXK, fieldKK_formatXK]
  rfl

/-! ### What a jump and a skip do -/

theorem toNat_zextAddr (nnn : Addr12) : (zextAddr nnn).toNat = nnn.toNat :=
  BitVec.toNat_setWidth_of_le (by decide)

theorem exec_jp (nnn : Addr12) (s : State) : exec (.jp nnn) s = .next { s with pc := zextAddr nnn } := rfl

theorem exec_seByte (x : Reg) (kk : Byte) (s : State) :
    exec (.seByte x kk) s = .next (skipIf (s.getV x == kk) s) := rfl

theorem exec_sneByte (x : Reg) (kk : Byte) (s : State) :
    exec (.sneByte x kk) s = .next (skipIf (s.getV x != kk) s) := rfl

theorem changesOnlyPc_setPc (s : State) (a : Word) : changesOnlyPc s { s with pc := a } :=
  ⟨rfl, fun _ => rfl⟩

theorem changesOnlyPc_skipIf (c : Bool) (s : State) : changesOnlyPc s (skipIf c s) := by
  rw [skipIf_eq]
  exact changesOnlyPc_setPc s _

/-- The extra step of a skip is modulo 2^16 (R103). -/
theorem toNat_pc_skipIf (c : Bool) (s : State) :
    (skipIf c s).pc.toNat = (if c then s.pc.toNat + 2 else s.pc.toNat) % 65536 := by
  cases c with
  | true => exact BitVec.toNat_add s.pc 2
  | false => exact (Nat.mod_eq_of_lt s.pc.isLt).symm

/-! ### The statements -/

/-- Settles O25: the word is format A of group 0x1, and the meaning writes PC alone. -/
theorem jpSetsPc : Obligations.JpSetsPc := by
  intro nnn s
  have hword : BitVec.ofNat 16 (0x1000 + nnn.toNat) = formatA 0x1#4 nnn := ofNat_eq_formatA 0x1#4 nnn
  refine ⟨?_, _, exec_jp nnn s, toNat_zextAddr nnn, changesOnlyPc_setPc s _⟩
  rw [hword]
  exact decodesTo_jp nnn

/-- Settles O29: the words are format XK of groups 0x3 and 0x4, and both meanings are the one conditional skip, on
equality and on its negation. -/
theorem skipOnByte : Obligations.SkipOnByte := by
  intro x kk s
  have hse : BitVec.ofNat 16 (0x3000 + x.val * 256 + kk.toNat) = formatXK 0x3#4 x kk := ofNat_eq_formatXK 0x3#4 x kk
  have hsne : BitVec.ofNat 16 (0x4000 + x.val * 256 + kk.toNat) = formatXK 0x4#4 x kk := ofNat_eq_formatXK 0x4#4 x kk
  refine ⟨?_, ?_, ⟨_, exec_seByte x kk s, changesOnlyPc_skipIf _ s, ?_⟩,
    ⟨_, exec_sneByte x kk s, changesOnlyPc_skipIf _ s, ?_⟩⟩
  · rw [hse]
    exact decodesTo_seByte x kk
  · rw [hsne]
    exact decodesTo_sneByte x kk
  · rw [toNat_pc_skipIf]
    simp only [beq_iff_eq]
  · rw [toNat_pc_skipIf]
    simp only [bne_iff_ne, ne_eq, ite_not]

end Sys2Proof.Machine

/-! ## Moves (41_moves.md): `LD Vx,byte` and `LD Vx,Vy` -/

namespace Sys2Proof.Machine

/-! ### A word written as a number has its format (R62) -/

theorem ofNat_eq_formatXYN (g : BitVec 4) (x y : Reg) (n : BitVec 4) :
    BitVec.ofNat 16 (g.toNat * 4096 + x.val * 256 + y.val * 16 + n.toNat) = formatXYN g x y n := by
  rw [← toNat_formatXYN, BitVec.ofNat_toNat, BitVec.setWidth_eq]

/-! ### Decoding (R64, R66) -/

theorem decodesTo_ldByte (x : Reg) (kk : Byte) : decodesTo (formatXK 0x6#4 x kk) (.ldByte x kk) := by
  intro key
  rw [decodeWith, fieldG_formatXK, fieldX_formatXK, fieldKK_formatXK]
  rfl

/-- Group 0x8 is decoded by its secondary code, whatever SECKEY_0E (R66). -/
theorem decodeWith_group8 (key : Config.SecKey) (x y : Reg) (n : BitVec 4) :
    decodeWith key (formatXYN 0x8#4 x y n) = decodeGroup8 (formatXYN 0x8#4 x y n) := by
  rw [decodeWith, fieldG_formatXYN]
  rfl

theorem decodesTo_ldReg (x y : Reg) : decodesTo (formatXYN 0x8#4 x y 0x0#4) (.ldReg x y) := by
  intro key
  rw [decodeWith_group8, decodeGroup8, fieldX_formatXYN, fieldY_formatXYN, fieldN_formatXYN]
  rfl

/-! ### What a register write does -/

theorem exec_ldByte (x : Reg) (kk : Byte) (s : State) : exec (.ldByte x kk) s = .next (s.setV x kk) := rfl

theorem exec_ldReg (x y : Reg) (s : State) : exec (.ldReg x y) s = .next (s.setV x (s.getV y)) := rfl

theorem changesOnlyReg_setV (s : State) (x : Reg) (b : Byte) : changesOnlyReg x s (s.setV x b) :=
  ⟨setV_only_v s x b, fun _ hr => getV_setV_of_ne s b hr.symm, fun _ => rfl⟩

/-! ### The statement -/

/-- Settles O32: the words are format XK of group 0x6 and format XYN of group 0x8 with secondary code 0, and both
meanings are one register write. -/
theorem movesOverwrite : Obligations.MovesOverwrite := by
  intro x y kk s
  have hbyte : BitVec.ofNat 16 (0x6000 + x.val * 256 + kk.toNat) = formatXK 0x6#4 x kk := ofNat_eq_formatXK 0x6#4 x kk
  have hreg : BitVec.ofNat 16 (0x8000 + x.val * 256 + y.val * 16) = formatXYN 0x8#4 x y 0x0#4 :=
    ofNat_eq_formatXYN 0x8#4 x y 0x0#4
  refine ⟨?_, ?_, ⟨_, exec_ldByte x kk s, getV_setV_self s x kk, changesOnlyReg_setV s x kk⟩,
    ⟨_, exec_ldReg x y s, getV_setV_self s x (s.getV y), changesOnlyReg_setV s x (s.getV y)⟩⟩
  · rw [hbyte]
    exact decodesTo_ldByte x kk
  · rw [hreg]
    exact decodesTo_ldReg x y

end Sys2Proof.Machine

/-! ## Arithmetic and logic without a flag (42_arithmetic_logic.md): `ADD Vx,byte`, `OR`, `AND` and `XOR` -/

namespace Sys2Proof.Machine

/-! ### Group 0x8 with its secondary code in the leading number (R62, R66) -/

theorem ofNat_eq_formatXYN_group8 (x y : Reg) (n : BitVec 4) :
    BitVec.ofNat 16 (0x8000 + n.toNat + x.val * 256 + y.val * 16) = formatXYN 0x8#4 x y n := by
  rw [← ofNat_eq_formatXYN]
  congr 1
  change 0x8000 + n.toNat + x.val * 256 + y.val * 16 = 8 * 4096 + x.val * 256 + y.val * 16 + n.toNat
  omega

/-! ### Decoding (R64, R66) -/

theorem decodesTo_addByte (x : Reg) (kk : Byte) : decodesTo (formatXK 0x7#4 x kk) (.addByte x kk) := by
  intro key
  rw [decodeWith, fieldG_formatXK, fieldX_formatXK, fieldKK_formatXK]
  rfl

theorem decodesTo_orReg (x y : Reg) : decodesTo (formatXYN 0x8#4 x y 0x1#4) (.orReg x y) := by
  intro key
  rw [decodeWith_group8, decodeGroup8, fieldX_formatXYN, fieldY_formatXYN, fieldN_formatXYN]
  rfl

theorem decodesTo_andReg (x y : Reg) : decodesTo (formatXYN 0x8#4 x y 0x2#4) (.andReg x y) := by
  intro key
  rw [decodeWith_group8, decodeGroup8, fieldX_formatXYN, fieldY_formatXYN, fieldN_formatXYN]
  rfl

theorem decodesTo_xorReg (x y : Reg) : decodesTo (formatXYN 0x8#4 x y 0x3#4) (.xorReg x y) := by
  intro key
  rw [decodeWith_group8, decodeGroup8, fieldX_formatXYN, fieldY_formatXYN, fieldN_formatXYN]
  rfl

/-! ### The meanings: one register write each -/

theorem exec_addByte (x : Reg) (kk : Byte) (s : State) :
    exec (.addByte x kk) s = .next (s.setV x (s.getV x + kk)) := rfl

theorem exec_orReg (x y : Reg) (s : State) :
    exec (.orReg x y) s = .next (s.setV x (s.getV x ||| s.getV y)) := rfl

theorem exec_andReg (x y : Reg) (s : State) :
    exec (.andReg x y) s = .next (s.setV x (s.getV x &&& s.getV y)) := rfl

theorem exec_xorReg (x y : Reg) (s : State) :
    exec (.xorReg x y) s = .next (s.setV x (s.getV x ^^^ s.getV y)) := rfl

/-! ### The statements -/

/-- Settles O33: the word is format XK of group 0x7, and the meaning writes the sum of bytes, which wraps (R127), to
one register. -/
theorem addByteWrapsWithoutFlag : Obligations.AddByteWrapsWithoutFlag := by
  intro x kk s
  have hword : BitVec.ofNat 16 (0x7000 + x.val * 256 + kk.toNat) = formatXK 0x7#4 x kk := ofNat_eq_formatXK 0x7#4 x kk
  refine ⟨?_, _, exec_addByte x kk s, ?_, changesOnlyReg_setV s x _⟩
  · rw [hword]
    exact decodesTo_addByte x kk
  · rw [getV_setV_self]
    exact BitVec.toNat_add (s.getV x) kk

/-- Settles O37: the words are format XYN of group 0x8 with secondary codes 1, 2 and 3, and each meaning is one
register write, of the bitwise operation of the two bytes. -/
theorem logicIsBitwise : Obligations.LogicIsBitwise := by
  intro x y s
  have hor : BitVec.ofNat 16 (0x8001 + x.val * 256 + y.val * 16) = formatXYN 0x8#4 x y 0x1#4 :=
    ofNat_eq_formatXYN_group8 x y 0x1#4
  have hand : BitVec.ofNat 16 (0x8002 + x.val * 256 + y.val * 16) = formatXYN 0x8#4 x y 0x2#4 :=
    ofNat_eq_formatXYN_group8 x y 0x2#4
  have hxor : BitVec.ofNat 16 (0x8003 + x.val * 256 + y.val * 16) = formatXYN 0x8#4 x y 0x3#4 :=
    ofNat_eq_formatXYN_group8 x y 0x3#4
  rw [hor, hand, hxor]
  refine ⟨decodesTo_orReg x y, decodesTo_andReg x y, decodesTo_xorReg x y,
    ⟨_, exec_orReg x y s, changesOnlyReg_setV s x _, fun j => ?_⟩,
    ⟨_, exec_andReg x y s, changesOnlyReg_setV s x _, fun j => ?_⟩,
    ⟨_, exec_xorReg x y s, changesOnlyReg_setV s x _, fun j => ?_⟩⟩
  · rw [getV_setV_self, BitVec.getLsbD_or]
  · rw [getV_setV_self, BitVec.getLsbD_and]
  · rw [getV_setV_self, BitVec.getLsbD_xor]

end Sys2Proof.Machine

/-! ## Index register (44_index.md): `LD I,addr` and `ADD I,Vx` -/

namespace Sys2Proof.Machine

/-! ### Group 0xF with its secondary code in the leading number (R62, R68) -/

theorem ofNat_eq_formatXK_groupF (x : Reg) (kk : Byte) :
    BitVec.ofNat 16 (0xF000 + kk.toNat + x.val * 256) = formatXK 0xF#4 x kk := by
  rw [← ofNat_eq_formatXK, Nat.add_right_comm]
  rfl

/-! ### Decoding (R64, R68) -/

theorem decodesTo_ldI (nnn : Addr12) : decodesTo (formatA 0xA#4 nnn) (.ldI nnn) := by
  intro key
  rw [decodeWith, fieldG_formatA, fieldNNN_formatA]
  rfl

/-- Group 0xF is decoded by its low byte, whatever SECKEY_0E (R68). -/
theorem decodeWith_groupF (key : Config.SecKey) (x : Reg) (kk : Byte) :
    decodeWith key (formatXK 0xF#4 x kk) = decodeGroupF (formatXK 0xF#4 x kk) := by
  rw [decodeWith, fieldG_formatXK]
  rfl

theorem decodesTo_addI (x : Reg) : decodesTo (formatXK 0xF#4 x 0x1E#8) (.addI x) := by
  intro key
  rw [decodeWith_groupF, decodeGroupF, fieldX_formatXK, fieldKK_formatXK]
  rfl

/-! ### The meanings: one write of I each -/

theorem toNat_zextByte (b : Byte) : (zextByte b).toNat = b.toNat :=
  BitVec.toNat_setWidth_of_le (by decide)

theorem exec_ldI (nnn : Addr12) (s : State) : exec (.ldI nnn) s = .next { s with i := zextAddr nnn } := rfl

theorem exec_addI (x : Reg) (s : State) :
    exec (.addI x) s = .next { s with i := s.i + zextByte (s.getV x) } := rfl

theorem changesOnlyIndex_setI (s : State) (a : Word) : changesOnlyIndex s { s with i := a } :=
  ⟨rfl, fun _ => rfl⟩

/-- A byte added to I wraps modulo 2^16 (R151). -/
theorem toNat_add_zextByte (a : Word) (b : Byte) : (a + zextByte b).toNat = (a.toNat + b.toNat) % 65536 := by
  rw [BitVec.toNat_add, toNat_zextByte]

/-! ### The statement -/

/-- Settles O40: the words are format A of group 0xA and format XS of group 0xF with secondary code 0x1E, and both
meanings write I alone, VF included in what is unchanged. -/
theorem indexLoadsAndAdds : Obligations.IndexLoadsAndAdds := by
  intro nnn x s
  have hld : BitVec.ofNat 16 (0xA000 + nnn.toNat) = formatA 0xA#4 nnn := ofNat_eq_formatA 0xA#4 nnn
  have hadd : BitVec.ofNat 16 (0xF01E + x.val * 256) = formatXK 0xF#4 x 0x1E#8 := ofNat_eq_formatXK_groupF x 0x1E#8
  rw [hld, hadd]
  exact ⟨decodesTo_ldI nnn, decodesTo_addI x,
    ⟨_, exec_ldI nnn s, toNat_zextAddr nnn, changesOnlyIndex_setI s _⟩,
    ⟨_, exec_addI x s, toNat_add_zextByte s.i (s.getV x), changesOnlyIndex_setI s _⟩⟩

end Sys2Proof.Machine

/-! ## Timer moves (48_timer_moves.md): `LD Vx,DT`, `LD DT,Vx` and `LD ST,Vx` -/

namespace Sys2Proof.Machine

/-! ### Decoding (R64, R68) -/

theorem decodesTo_ldVxDt (x : Reg) : decodesTo (formatXK 0xF#4 x 0x07#8) (.ldVxDt x) := by
  intro key
  rw [decodeWith_groupF, decodeGroupF, fieldX_formatXK, fieldKK_formatXK]
  rfl

theorem decodesTo_ldDtVx (x : Reg) : decodesTo (formatXK 0xF#4 x 0x15#8) (.ldDtVx x) := by
  intro key
  rw [decodeWith_groupF, decodeGroupF, fieldX_formatXK, fieldKK_formatXK]
  rfl

theorem decodesTo_ldStVx (x : Reg) : decodesTo (formatXK 0xF#4 x 0x18#8) (.ldStVx x) := by
  intro key
  rw [decodeWith_groupF, decodeGroupF, fieldX_formatXK, fieldKK_formatXK]
  rfl

/-! ### The meanings: one write of a register or of a timer each -/

theorem exec_ldVxDt (x : Reg) (s : State) : exec (.ldVxDt x) s = .next (s.setV x s.dt) := rfl

theorem exec_ldDtVx (x : Reg) (s : State) : exec (.ldDtVx x) s = .next { s with dt := s.getV x } := rfl

theorem exec_ldStVx (x : Reg) (s : State) : exec (.ldStVx x) s = .next { s with st := s.getV x } := rfl

/-! ### The whole cycle: the tick comes after the meaning (R30, R320) -/

/-- A cycle whose meaning completes without a fault ends with the tick of both timers. -/
theorem step_of_exec_run {s u : State} {i : Instr} (h : fetches s i) (hexec : exec i (advance s) = .next u)
    (hrun : u.status = .run) : step s = .next (tick u) := by
  rw [step_of_fetches h, hexec, finishCycle, tickUnlessHalted_of_run hrun]

/-- The register takes DT as the tick before this cycle left it (R190). -/
theorem step_ldVxDt {x : Reg} {s : State} (h : fetches s (.ldVxDt x)) :
    step s = .next (tick ((advance s).setV x s.dt)) :=
  have ⟨hrun, _, _⟩ := h
  step_of_exec_run h (exec_ldVxDt x (advance s)) hrun

theorem step_ldDtVx {x : Reg} {s : State} (h : fetches s (.ldDtVx x)) :
    step s = .next (tick { advance s with dt := s.getV x }) :=
  have ⟨hrun, _, _⟩ := h
  step_of_exec_run h (exec_ldDtVx x (advance s)) hrun

theorem step_ldStVx {x : Reg} {s : State} (h : fetches s (.ldStVx x)) :
    step s = .next (tick { advance s with st := s.getV x }) :=
  have ⟨hrun, _, _⟩ := h
  step_of_exec_run h (exec_ldStVx x (advance s)) hrun

/-! ### The statement -/

/-- Settles O49: the words are format XS of group 0xF with secondary codes 0x07, 0x15 and 0x18, each meaning is one
write, and the cycle then ticks both timers, the one just written included. -/
theorem timerMoves : Obligations.TimerMoves := by
  intro x s
  have hread : BitVec.ofNat 16 (0xF007 + x.val * 256) = formatXK 0xF#4 x 0x07#8 := ofNat_eq_formatXK_groupF x 0x07#8
  have hdelay : BitVec.ofNat 16 (0xF015 + x.val * 256) = formatXK 0xF#4 x 0x15#8 := ofNat_eq_formatXK_groupF x 0x15#8
  have hsound : BitVec.ofNat 16 (0xF018 + x.val * 256) = formatXK 0xF#4 x 0x18#8 := ofNat_eq_formatXK_groupF x 0x18#8
  rw [hread, hdelay, hsound]
  refine ⟨decodesTo_ldVxDt x, decodesTo_ldDtVx x, decodesTo_ldStVx x,
    ⟨_, exec_ldVxDt x s, getV_setV_self s x s.dt, changesOnlyReg_setV s x s.dt⟩,
    ⟨_, exec_ldDtVx x s, rfl, rfl, fun _ => rfl⟩,
    ⟨_, exec_ldStVx x s, rfl, rfl, fun _ => rfl⟩,
    fun h => ⟨_, step_ldVxDt h, ?_, toNat_tickTimer s.dt, toNat_tickTimer s.st⟩,
    fun h => ⟨_, step_ldDtVx h, toNat_tickTimer (s.getV x), toNat_tickTimer s.st⟩,
    fun h => ⟨_, step_ldStVx h, toNat_tickTimer (s.getV x), toNat_tickTimer s.dt⟩⟩
  rw [getV_tick, getV_setV_self]

end Sys2Proof.Machine

/-! ## Font pointer (49_font_bcd_block.md): `LD F,Vx` -/

namespace Sys2Proof.Machine

theorem decodesTo_ldF (x : Reg) : decodesTo (formatXK 0xF#4 x 0x29#8) (.ldF x) := by
  intro key
  rw [decodeWith_groupF, decodeGroupF, fieldX_formatXK, fieldKK_formatXK]
  rfl

theorem exec_ldF (x : Reg) (s : State) : exec (.ldF x) s = .next { s with i := glyphAddress (s.getV x) } := rfl

/-- Settles O41: the word is format XS of group 0xF with secondary code 0x29, and the meaning writes I alone, with the
glyph address, which is too small to wrap. -/
theorem fontPointerPointsAtGlyph : Obligations.FontPointerPointsAtGlyph := by
  intro x s
  have hword : BitVec.ofNat 16 (0xF029 + x.val * 256) = formatXK 0xF#4 x 0x29#8 := ofNat_eq_formatXK_groupF x 0x29#8
  rw [hword]
  exact ⟨decodesTo_ldF x, _, exec_ldF x s, toNat_glyphAddress (s.getV x), changesOnlyIndex_setI s _⟩

end Sys2Proof.Machine

/-! ## Decoding (30_encoding.md): the encoder inverted -/

namespace Sys2Proof.Machine

/-! ### The rows not decoded above; unexamined bits are free (R69) -/

theorem decodesTo_cls (x : Reg) : decodesTo (formatXK 0x0#4 x 0xE0#8) .cls := by
  intro key
  rw [decodeWith, fieldG_formatXK]
  cases key <;> simp [decodeGroup0]

theorem decodesTo_ret (x : Reg) : decodesTo (formatXK 0x0#4 x 0xEE#8) .ret := by
  intro key
  rw [decodeWith, fieldG_formatXK]
  cases key <;> simp [decodeGroup0]

theorem decodesTo_call (nnn : Addr12) : decodesTo (formatA 0x2#4 nnn) (.call nnn) := by
  intro key
  rw [decodeWith, fieldG_formatA, fieldNNN_formatA]
  rfl

theorem decodesTo_seReg (x y : Reg) (n : BitVec 4) : decodesTo (formatXYN 0x5#4 x y n) (.seReg x y) := by
  intro key
  rw [decodeWith, fieldG_formatXYN, fieldX_formatXYN, fieldY_formatXYN]
  rfl

theorem decodesTo_sneReg (x y : Reg) (n : BitVec 4) : decodesTo (formatXYN 0x9#4 x y n) (.sneReg x y) := by
  intro key
  rw [decodeWith, fieldG_formatXYN, fieldX_formatXYN, fieldY_formatXYN]
  rfl

theorem decodesTo_addReg (x y : Reg) : decodesTo (formatXYN 0x8#4 x y 0x4#4) (.addReg x y) := by
  intro key
  rw [decodeWith_group8, decodeGroup8, fieldX_formatXYN, fieldY_formatXYN, fieldN_formatXYN]
  rfl

theorem decodesTo_subReg (x y : Reg) : decodesTo (formatXYN 0x8#4 x y 0x5#4) (.subReg x y) := by
  intro key
  rw [decodeWith_group8, decodeGroup8, fieldX_formatXYN, fieldY_formatXYN, fieldN_formatXYN]
  rfl

theorem decodesTo_shr (x y : Reg) : decodesTo (formatXYN 0x8#4 x y 0x6#4) (.shr x) := by
  intro key
  rw [decodeWith_group8, decodeGroup8, fieldX_formatXYN, fieldN_formatXYN]
  rfl

theorem decodesTo_subnReg (x y : Reg) : decodesTo (formatXYN 0x8#4 x y 0x7#4) (.subnReg x y) := by
  intro key
  rw [decodeWith_group8, decodeGroup8, fieldX_formatXYN, fieldY_formatXYN, fieldN_formatXYN]
  rfl

theorem decodesTo_shl (x y : Reg) : decodesTo (formatXYN 0x8#4 x y 0xE#4) (.shl x) := by
  intro key
  rw [decodeWith_group8, decodeGroup8, fieldX_formatXYN, fieldN_formatXYN]
  rfl

theorem decodesTo_jpV0 (nnn : Addr12) : decodesTo (formatA 0xB#4 nnn) (.jpV0 nnn) := by
  intro key
  rw [decodeWith, fieldG_formatA, fieldNNN_formatA]
  rfl

theorem decodesTo_rnd (x : Reg) (kk : Byte) : decodesTo (formatXK 0xC#4 x kk) (.rnd x kk) := by
  intro key
  rw [decodeWith, fieldG_formatXK, fieldX_formatXK, fieldKK_formatXK]
  rfl

theorem decodesTo_drw (x y : Reg) (n : BitVec 4) : decodesTo (formatXYN 0xD#4 x y n) (.drw x y n.toNat) := by
  intro key
  rw [decodeWith, fieldG_formatXYN, fieldX_formatXYN, fieldY_formatXYN, fieldN_formatXYN]
  rfl

theorem decodesTo_skp (x : Reg) : decodesTo (formatXK 0xE#4 x 0x9E#8) (.skp x) := by
  intro key
  rw [decodeWith, fieldG_formatXK]
  cases key <;> simp [decodeGroupE]

theorem decodesTo_sknp (x : Reg) : decodesTo (formatXK 0xE#4 x 0xA1#8) (.sknp x) := by
  intro key
  rw [decodeWith, fieldG_formatXK]
  cases key <;> simp [decodeGroupE]

theorem decodesTo_ldVxK (x : Reg) : decodesTo (formatXK 0xF#4 x 0x0A#8) (.ldVxK x) := by
  intro key
  rw [decodeWith_groupF, decodeGroupF, fieldX_formatXK, fieldKK_formatXK]
  rfl

theorem decodesTo_ldB (x : Reg) : decodesTo (formatXK 0xF#4 x 0x33#8) (.ldB x) := by
  intro key
  rw [decodeWith_groupF, decodeGroupF, fieldX_formatXK, fieldKK_formatXK]
  rfl

theorem decodesTo_storeRegs (x : Reg) : decodesTo (formatXK 0xF#4 x 0x55#8) (.storeRegs x) := by
  intro key
  rw [decodeWith_groupF, decodeGroupF, fieldX_formatXK, fieldKK_formatXK]
  rfl

theorem decodesTo_loadRegs (x : Reg) : decodesTo (formatXK 0xF#4 x 0x65#8) (.loadRegs x) := by
  intro key
  rw [decodeWith_groupF, decodeGroupF, fieldX_formatXK, fieldKK_formatXK]
  rfl

/-! ### The canonical word -/

/-- The nibble holds every height that is well-formed (R61, R74). -/
theorem toNat_height {n : Nat} (h : n ≤ 15) : (BitVec.ofNat 4 n).toNat = n := by
  rw [BitVec.toNat_ofNat]
  omega

theorem decodesTo_encode_drw {x y : Reg} {n : Nat} (h : (Instr.drw x y n).wf = true) :
    decodesTo (encode (.drw x y n)) (.drw x y n) := by
  have hdec := decodesTo_drw x y (BitVec.ofNat 4 n)
  rwa [toNat_height (of_decide_eq_true h)] at hdec

/-- Row by row, the decoder reads the canonical word back, whatever SECKEY_0E is. -/
theorem decodesTo_encode : ∀ i : Instr, i.wf = true → decodesTo (encode i) i
  | .cls, _ => decodesTo_cls 0
  | .ret, _ => decodesTo_ret 0
  | .jp nnn, _ => decodesTo_jp nnn
  | .call nnn, _ => decodesTo_call nnn
  | .seByte x kk, _ => decodesTo_seByte x kk
  | .sneByte x kk, _ => decodesTo_sneByte x kk
  | .seReg x y, _ => decodesTo_seReg x y 0
  | .ldByte x kk, _ => decodesTo_ldByte x kk
  | .addByte x kk, _ => decodesTo_addByte x kk
  | .ldReg x y, _ => decodesTo_ldReg x y
  | .orReg x y, _ => decodesTo_orReg x y
  | .andReg x y, _ => decodesTo_andReg x y
  | .xorReg x y, _ => decodesTo_xorReg x y
  | .addReg x y, _ => decodesTo_addReg x y
  | .subReg x y, _ => decodesTo_subReg x y
  | .shr x, _ => decodesTo_shr x 0
  | .subnReg x y, _ => decodesTo_subnReg x y
  | .shl x, _ => decodesTo_shl x 0
  | .sneReg x y, _ => decodesTo_sneReg x y 0
  | .ldI nnn, _ => decodesTo_ldI nnn
  | .jpV0 nnn, _ => decodesTo_jpV0 nnn
  | .rnd x kk, _ => decodesTo_rnd x kk
  | .drw _ _ _, h => decodesTo_encode_drw h
  | .skp x, _ => decodesTo_skp x
  | .sknp x, _ => decodesTo_sknp x
  | .ldVxDt x, _ => decodesTo_ldVxDt x
  | .ldVxK x, _ => decodesTo_ldVxK x
  | .ldDtVx x, _ => decodesTo_ldDtVx x
  | .ldStVx x, _ => decodesTo_ldStVx x
  | .addI x, _ => decodesTo_addI x
  | .ldF x, _ => decodesTo_ldF x
  | .ldB x, _ => decodesTo_ldB x
  | .storeRegs x, _ => decodesTo_storeRegs x
  | .loadRegs x, _ => decodesTo_loadRegs x

/-- The two bytes of a word, high byte first, make the word again (R42). -/
theorem wordOfBytes_extractLsb' (w : Word) : wordOfBytes (w.extractLsb' 8 8) (w.extractLsb' 0 8) = w := by
  apply BitVec.eq_of_toNat_eq
  have := w.isLt
  rw [toNat_wordOfBytes, BitVec.extractLsb'_toNat, BitVec.extractLsb'_toNat, Nat.shiftRight_eq_div_pow,
    Nat.shiftRight_eq_div_pow]
  omega

theorem decodeBytes_encodeBytes (i : Instr) : decodeBytes (encodeBytes i) = decodeWord (encode i) :=
  congrArg decodeWord (wordOfBytes_extractLsb' (encode i))

/-- Settles O1, row by row: the fields of the canonical word are the operands, and the bytes in memory make the word. -/
theorem decodeInvertsEncode : Obligations.DecodeInvertsEncode := by
  intro i hwf
  have hdec := decodesTo_encode i hwf
  exact ⟨hdec, (decodeBytes_encodeBytes i).trans (hdec secKey0E)⟩

end Sys2Proof.Machine

/-! ## Decoding (30_encoding.md): which words the decoder accepts -/

namespace Sys2Proof.Machine

/-! ### The opcode table: what a row says of the word it selects -/

theorem Row.selects_iff {r : Row} {w : Word} : r.selects w = true ↔ w &&& r.mask = r.pattern := beq_iff_eq

section
variable {r : Row} {w : Word} {g n : BitVec 4} {kk : Byte}

/-- A row with mask F000 selects by the group alone. -/
theorem Row.selects_F000 (hm : r.mask = 0xF000#16) (hp : r.pattern = formatA g 0) :
    r.selects w = true ↔ fieldG w = g := by
  rw [Row.selects_iff, hm, hp, and_F000]
  exact ⟨fun h => by simpa using congrArg fieldG h, fun h => by rw [h]⟩

/-- A row with mask F0FF selects by the group and the low byte. -/
theorem Row.selects_F0FF (hm : r.mask = 0xF0FF#16) (hp : r.pattern = formatXK g 0 kk) :
    r.selects w = true ↔ fieldG w = g ∧ fieldKK w = kk := by
  rw [Row.selects_iff, hm, hp, and_F0FF]
  exact ⟨fun h => ⟨by simpa using congrArg fieldG h, by simpa using congrArg fieldKK h⟩, fun ⟨hg, hk⟩ => by rw [hg, hk]⟩

/-- A row with mask F00F selects by the group and the low nibble. -/
theorem Row.selects_F00F (hm : r.mask = 0xF00F#16) (hp : r.pattern = formatXYN g 0 0 n) :
    r.selects w = true ↔ fieldG w = g ∧ fieldN w = n := by
  rw [Row.selects_iff, hm, hp, and_F00F]
  exact ⟨fun h => ⟨by simpa using congrArg fieldG h, by simpa using congrArg fieldN h⟩, fun ⟨hg, hn⟩ => by rw [hg, hn]⟩

end

/-! ### What the decoder gives lies in a row that selects the word -/

theorem row_mem_opcodeTable (i : Instr) : i.row ∈ opcodeTable := by
  cases i <;> simp [opcodeTable, onePerRow, Instr.row]

theorem selects_of_decodeGroup0 {w : Word} {i : Instr} (hg : fieldG w = 0x0#4)
    (h : decodeGroup0 .lowByte w = .ok i) : i.row.selects w = true := by
  simp only [decodeGroup0] at h
  split at h
  · next hk =>
    cases h
    exact (Row.selects_F0FF rfl rfl).mpr ⟨hg, hk⟩
  · split at h
    · next hk =>
      cases h
      exact (Row.selects_F0FF rfl rfl).mpr ⟨hg, hk⟩
    · cases h

theorem selects_of_decodeGroup8 {w : Word} {i : Instr} (hg : fieldG w = 0x8#4) (h : decodeGroup8 w = .ok i) :
    i.row.selects w = true := by
  unfold decodeGroup8 at h
  split at h
  case h_10 => cases h
  all_goals
    cases h
    exact (Row.selects_F00F rfl rfl).mpr ⟨hg, ‹_›⟩

theorem selects_of_decodeGroupE {w : Word} {i : Instr} (hg : fieldG w = 0xE#4)
    (h : decodeGroupE .lowByte w = .ok i) : i.row.selects w = true := by
  simp only [decodeGroupE] at h
  split at h
  · next hk =>
    cases h
    exact (Row.selects_F0FF rfl rfl).mpr ⟨hg, hk⟩
  · split at h
    · next hk =>
      cases h
      exact (Row.selects_F0FF rfl rfl).mpr ⟨hg, hk⟩
    · cases h

theorem selects_of_decodeGroupF {w : Word} {i : Instr} (hg : fieldG w = 0xF#4) (h : decodeGroupF w = .ok i) :
    i.row.selects w = true := by
  unfold decodeGroupF at h
  split at h
  case h_10 => cases h
  all_goals
    cases h
    exact (Row.selects_F0FF rfl rfl).mpr ⟨hg, ‹_›⟩

/-- Every instruction that the decoder gives under low_byte is of a row that selects the word. -/
theorem selects_of_decodeWord {w : Word} {i : Instr} (h : decodeWord w = .ok i) : i.row.selects w = true := by
  unfold decodeWord decodeWith at h
  split at h
  case h_1 hg => exact selects_of_decodeGroup0 hg h
  case h_9 hg => exact selects_of_decodeGroup8 hg h
  case h_15 hg => exact selects_of_decodeGroupE hg h
  case h_16 =>
    have hg : fieldG w = 0xF#4 := by
      simp only [imp_false] at *
      bv_omega
    exact selects_of_decodeGroupF hg h
  all_goals
    cases h
    exact (Row.selects_F000 rfl rfl).mpr ‹_›

/-! ### A selected word has the format of the row -/

section
variable {r : Row} {w : Word} {g n : BitVec 4} {kk : Byte}

theorem eq_formatA_of_F000 (hm : r.mask = 0xF000#16) (hp : r.pattern = formatA g 0) (h : r.selects w = true) :
    w = formatA g (fieldNNN w) := by
  rw [← (Row.selects_F000 hm hp).mp h, word_eq_formatA]

theorem eq_formatXK_of_F000 (hm : r.mask = 0xF000#16) (hp : r.pattern = formatA g 0) (h : r.selects w = true) :
    w = formatXK g (fieldX w) (fieldKK w) := by
  rw [← (Row.selects_F000 hm hp).mp h, word_eq_formatXK]

theorem eq_formatXYN_of_F000 (hm : r.mask = 0xF000#16) (hp : r.pattern = formatA g 0) (h : r.selects w = true) :
    w = formatXYN g (fieldX w) (fieldY w) (fieldN w) := by
  rw [← (Row.selects_F000 hm hp).mp h, word_eq_formatXYN]

theorem eq_formatXK_of_F0FF (hm : r.mask = 0xF0FF#16) (hp : r.pattern = formatXK g 0 kk) (h : r.selects w = true) :
    w = formatXK g (fieldX w) kk := by
  obtain ⟨hg, hk⟩ := (Row.selects_F0FF hm hp).mp h
  rw [← hg, ← hk, word_eq_formatXK]

theorem eq_formatXYN_of_F00F (hm : r.mask = 0xF00F#16) (hp : r.pattern = formatXYN g 0 0 n) (h : r.selects w = true) :
    w = formatXYN g (fieldX w) (fieldY w) n := by
  obtain ⟨hg, hn⟩ := (Row.selects_F00F hm hp).mp h
  rw [← hg, ← hn, word_eq_formatXYN]

end

/-- An instruction of the row `r` that the decoder gives for a word equal to `v`. -/
theorem exists_decode_of_eq {v w : Word} {r : Row} {j : Instr} (hw : w = v) (hj : decodesTo v j) (hr : j.row = r) :
    ∃ i, decodeWord w = .ok i ∧ i.row = r :=
  ⟨j, hw ▸ hj secKey0E, hr⟩

/-- Row by row, the decoder gives an instruction of the row on every word that the row selects. -/
theorem exists_decode_of_selects {w : Word} :
    ∀ j : Instr, j.row.selects w = true → ∃ i, decodeWord w = .ok i ∧ i.row = j.row
  | .cls, h => exists_decode_of_eq (eq_formatXK_of_F0FF rfl rfl h) (decodesTo_cls _) rfl
  | .ret, h => exists_decode_of_eq (eq_formatXK_of_F0FF rfl rfl h) (decodesTo_ret _) rfl
  | .jp _, h => exists_decode_of_eq (eq_formatA_of_F000 rfl rfl h) (decodesTo_jp _) rfl
  | .call _, h => exists_decode_of_eq (eq_formatA_of_F000 rfl rfl h) (decodesTo_call _) rfl
  | .seByte _ _, h => exists_decode_of_eq (eq_formatXK_of_F000 rfl rfl h) (decodesTo_seByte _ _) rfl
  | .sneByte _ _, h => exists_decode_of_eq (eq_formatXK_of_F000 rfl rfl h) (decodesTo_sneByte _ _) rfl
  | .seReg _ _, h => exists_decode_of_eq (eq_formatXYN_of_F000 rfl rfl h) (decodesTo_seReg _ _ _) rfl
  | .ldByte _ _, h => exists_decode_of_eq (eq_formatXK_of_F000 rfl rfl h) (decodesTo_ldByte _ _) rfl
  | .addByte _ _, h => exists_decode_of_eq (eq_formatXK_of_F000 rfl rfl h) (decodesTo_addByte _ _) rfl
  | .ldReg _ _, h => exists_decode_of_eq (eq_formatXYN_of_F00F rfl rfl h) (decodesTo_ldReg _ _) rfl
  | .orReg _ _, h => exists_decode_of_eq (eq_formatXYN_of_F00F rfl rfl h) (decodesTo_orReg _ _) rfl
  | .andReg _ _, h => exists_decode_of_eq (eq_formatXYN_of_F00F rfl rfl h) (decodesTo_andReg _ _) rfl
  | .xorReg _ _, h => exists_decode_of_eq (eq_formatXYN_of_F00F rfl rfl h) (decodesTo_xorReg _ _) rfl
  | .addReg _ _, h => exists_decode_of_eq (eq_formatXYN_of_F00F rfl rfl h) (decodesTo_addReg _ _) rfl
  | .subReg _ _, h => exists_decode_of_eq (eq_formatXYN_of_F00F rfl rfl h) (decodesTo_subReg _ _) rfl
  | .shr _, h => exists_decode_of_eq (eq_formatXYN_of_F00F rfl rfl h) (decodesTo_shr _ _) rfl
  | .subnReg _ _, h => exists_decode_of_eq (eq_formatXYN_of_F00F rfl rfl h) (decodesTo_subnReg _ _) rfl
  | .shl _, h => exists_decode_of_eq (eq_formatXYN_of_F00F rfl rfl h) (decodesTo_shl _ _) rfl
  | .sneReg _ _, h => exists_decode_of_eq (eq_formatXYN_of_F000 rfl rfl h) (decodesTo_sneReg _ _ _) rfl
  | .ldI _, h => exists_decode_of_eq (eq_formatA_of_F000 rfl rfl h) (decodesTo_ldI _) rfl
  | .jpV0 _, h => exists_decode_of_eq (eq_formatA_of_F000 rfl rfl h) (decodesTo_jpV0 _) rfl
  | .rnd _ _, h => exists_decode_of_eq (eq_formatXK_of_F000 rfl rfl h) (decodesTo_rnd _ _) rfl
  | .drw _ _ _, h => exists_decode_of_eq (eq_formatXYN_of_F000 rfl rfl h) (decodesTo_drw _ _ _) rfl
  | .skp _, h => exists_decode_of_eq (eq_formatXK_of_F0FF rfl rfl h) (decodesTo_skp _) rfl
  | .sknp _, h => exists_decode_of_eq (eq_formatXK_of_F0FF rfl rfl h) (decodesTo_sknp _) rfl
  | .ldVxDt _, h => exists_decode_of_eq (eq_formatXK_of_F0FF rfl rfl h) (decodesTo_ldVxDt _) rfl
  | .ldVxK _, h => exists_decode_of_eq (eq_formatXK_of_F0FF rfl rfl h) (decodesTo_ldVxK _) rfl
  | .ldDtVx _, h => exists_decode_of_eq (eq_formatXK_of_F0FF rfl rfl h) (decodesTo_ldDtVx _) rfl
  | .ldStVx _, h => exists_decode_of_eq (eq_formatXK_of_F0FF rfl rfl h) (decodesTo_ldStVx _) rfl
  | .addI _, h => exists_decode_of_eq (eq_formatXK_of_F0FF rfl rfl h) (decodesTo_addI _) rfl
  | .ldF _, h => exists_decode_of_eq (eq_formatXK_of_F0FF rfl rfl h) (decodesTo_ldF _) rfl
  | .ldB _, h => exists_decode_of_eq (eq_formatXK_of_F0FF rfl rfl h) (decodesTo_ldB _) rfl
  | .storeRegs _, h => exists_decode_of_eq (eq_formatXK_of_F0FF rfl rfl h) (decodesTo_storeRegs _) rfl
  | .loadRegs _, h => exists_decode_of_eq (eq_formatXK_of_F0FF rfl rfl h) (decodesTo_loadRegs _) rfl

/-- The one check of well-formedness, the height of a sprite, holds of a nibble. -/
theorem wf_of_decodeWord {w : Word} {i : Instr} (h : decodeWord w = .ok i) : i.wf = true := by
  cases i
  case drw x y n =>
    have hw := eq_formatXYN_of_F000 (g := 0xD#4) rfl rfl (selects_of_decodeWord h)
    have hdec : decodeWord w = .ok (.drw (fieldX w) (fieldY w) (fieldN w).toNat) :=
      (congrArg decodeWord hw).trans (decodesTo_drw _ _ _ secKey0E)
    rw [hdec] at h
    cases h
    exact decide_eq_true (Nat.le_of_lt_succ (fieldN w).isLt)
  all_goals rfl

/-- Settles O2: a row selects by the fields that the decoder looks at, in both directions. -/
theorem decoderAcceptsExactlyTheTable : Obligations.DecoderAcceptsExactlyTheTable := by
  intro w
  refine ⟨fun i h => ⟨wf_of_decodeWord h, row_mem_opcodeTable i, selects_of_decodeWord h⟩, fun r hr h => ?_⟩
  obtain ⟨j, -, rfl⟩ := List.mem_map.mp hr
  exact exists_decode_of_selects j h

end Sys2Proof.Machine

/-! ## Decoding (30_encoding.md): the illegal space, the unexamined bits and SECKEY_0E -/

namespace Sys2Proof.Machine

/-! ### A field has a value exactly when the number does (R61) -/

theorem fieldG_eq_iff {w : Word} {g : BitVec 4} : fieldG w = g ↔ w.toNat / 4096 = g.toNat := by
  have := w.isLt
  rw [← BitVec.toNat_inj, toNat_fieldG, Nat.mod_eq_of_lt (by omega)]

theorem fieldN_eq_iff {w : Word} {n : BitVec 4} : fieldN w = n ↔ w.toNat % 16 = n.toNat := by
  rw [← BitVec.toNat_inj, toNat_fieldN]

theorem fieldKK_eq_iff {w : Word} {kk : Byte} : fieldKK w = kk ↔ w.toNat % 256 = kk.toNat := by
  rw [← BitVec.toNat_inj, toNat_fieldKK]

/-! ### The four groups with a secondary code refuse what their tables do not list (R65 to R68) -/

theorem decodeGroup0_error_iff {w : Word} :
    (∃ e, decodeGroup0 .lowByte w = .error e) ↔ w.toNat % 256 ∉ [0xE0, 0xEE] := by
  simp only [decodeGroup0, fieldKK_eq_iff]
  split
  · next h => simp [h]
  · split
    · next h => simp [h]
    · simp_all

theorem decodeGroupE_error_iff {w : Word} :
    (∃ e, decodeGroupE .lowByte w = .error e) ↔ w.toNat % 256 ∉ [0x9E, 0xA1] := by
  simp only [decodeGroupE, fieldKK_eq_iff]
  split
  · next h => simp [h]
  · split
    · next h => simp [h]
    · simp_all

theorem decodeGroup8_error_iff {w : Word} :
    (∃ e, decodeGroup8 w = .error e) ↔ w.toNat % 16 ∈ [0x8, 0x9, 0xA, 0xB, 0xC, 0xD, 0xF] := by
  unfold decodeGroup8
  split
  case h_10 =>
    simp_all [fieldN_eq_iff]
    omega
  all_goals
    next h =>
    rw [fieldN_eq_iff] at h
    simp [h]

theorem decodeGroupF_error_iff {w : Word} :
    (∃ e, decodeGroupF w = .error e) ↔ w.toNat % 256 ∉ [0x07, 0x0A, 0x15, 0x18, 0x1E, 0x29, 0x33, 0x55, 0x65] := by
  unfold decodeGroupF
  split
  case h_10 => simp_all [fieldKK_eq_iff]
  all_goals
    next h =>
    rw [fieldKK_eq_iff] at h
    simp [h]

/-! ### The dispatch on the group nibble (R64) -/

theorem decodeWith_of_group0 {w : Word} (key : Config.SecKey) (hg : fieldG w = 0x0#4) :
    decodeWith key w = decodeGroup0 key w := by
  rw [decodeWith, hg]
  rfl

theorem decodeWith_of_group8 {w : Word} (key : Config.SecKey) (hg : fieldG w = 0x8#4) :
    decodeWith key w = decodeGroup8 w := by
  rw [decodeWith, hg]
  rfl

theorem decodeWith_of_groupE {w : Word} (key : Config.SecKey) (hg : fieldG w = 0xE#4) :
    decodeWith key w = decodeGroupE key w := by
  rw [decodeWith, hg]
  rfl

theorem decodeWith_of_groupF {w : Word} (key : Config.SecKey) (hg : fieldG w = 0xF#4) :
    decodeWith key w = decodeGroupF w := by
  rw [decodeWith, hg]
  rfl

/-- Outside groups 0 and E the decoder does not look at SECKEY_0E. -/
theorem decodeWith_key_irrelevant {w : Word} (h0 : fieldG w ≠ 0x0#4) (hE : fieldG w ≠ 0xE#4) (key key' : Config.SecKey) :
    decodeWith key w = decodeWith key' w := by
  unfold decodeWith
  split
  case h_1 h => exact absurd h h0
  case h_15 h => exact absurd h hE
  all_goals rfl

/-- A word is refused in groups 0, 8, E and F only (R64, R70). -/
theorem decodeWith_accepts {w : Word} (key : Config.SecKey) (h0 : fieldG w ≠ 0x0#4) (h8 : fieldG w ≠ 0x8#4)
    (hE : fieldG w ≠ 0xE#4) (hF : fieldG w ≠ 0xF#4) : ∃ i, decodeWith key w = .ok i := by
  unfold decodeWith
  split
  case h_1 h => exact absurd h h0
  case h_9 h => exact absurd h h8
  case h_15 h => exact absurd h hE
  case h_16 =>
    simp only [imp_false] at *
    bv_omega
  all_goals exact ⟨_, rfl⟩

/-- Settles O3: a word is refused in one of the four groups with a secondary code, by the table of that group. -/
theorem illegalWordsAreThoseOfTheTable : Obligations.IllegalWordsAreThoseOfTheTable := by
  intro w
  by_cases h0 : fieldG w = 0x0#4
  · have hg := fieldG_eq_iff.mp h0
    rw [decodeWord, decodeWith_of_group0 _ h0, secKey0E, decodeGroup0_error_iff]
    simp [hg]
  by_cases h8 : fieldG w = 0x8#4
  · have hg := fieldG_eq_iff.mp h8
    rw [decodeWord, decodeWith_of_group8 _ h8, decodeGroup8_error_iff]
    simp [hg]
  by_cases hE : fieldG w = 0xE#4
  · have hg := fieldG_eq_iff.mp hE
    rw [decodeWord, decodeWith_of_groupE _ hE, secKey0E, decodeGroupE_error_iff]
    simp [hg]
  by_cases hF : fieldG w = 0xF#4
  · have hg := fieldG_eq_iff.mp hF
    rw [decodeWord, decodeWith_of_groupF _ hF, decodeGroupF_error_iff]
    simp [hg]
  obtain ⟨i, hi⟩ := decodeWith_accepts secKey0E h0 h8 hE hF
  rw [fieldG_eq_iff] at h0 h8 hE hF
  simp_all [decodeWord]

/-! ### SECKEY_0E = low_nibble (R65, R67; decision D3) -/

/-- The low nibble of a word is that of its low byte. -/
theorem fieldN_of_fieldKK {w : Word} {kk : Byte} (h : fieldKK w = kk) : fieldN w = kk.setWidth 4 := by
  rw [fieldKK_eq_iff] at h
  rw [fieldN_eq_iff, BitVec.toNat_setWidth]
  omega

theorem decodeGroup0_lowNibble_of_lowByte {w : Word} {i : Instr} (h : decodeGroup0 .lowByte w = .ok i) :
    decodeGroup0 .lowNibble w = .ok i := by
  simp only [decodeGroup0] at h ⊢
  split at h
  · next hk => rwa [fieldN_of_fieldKK hk]
  · split at h
    · next hk => rwa [fieldN_of_fieldKK hk]
    · cases h

theorem decodeGroupE_lowNibble_of_lowByte {w : Word} {i : Instr} (h : decodeGroupE .lowByte w = .ok i) :
    decodeGroupE .lowNibble w = .ok i := by
  simp only [decodeGroupE] at h ⊢
  split at h
  · next hk => rwa [fieldN_of_fieldKK hk]
  · split at h
    · next hk => rwa [fieldN_of_fieldKK hk]
    · cases h

theorem decodeWith_lowNibble_of_lowByte {w : Word} {i : Instr} (h : decodeWith .lowByte w = .ok i) :
    decodeWith .lowNibble w = .ok i := by
  by_cases h0 : fieldG w = 0x0#4
  · rw [decodeWith_of_group0 _ h0] at h ⊢
    exact decodeGroup0_lowNibble_of_lowByte h
  by_cases hE : fieldG w = 0xE#4
  · rw [decodeWith_of_groupE _ hE] at h ⊢
    exact decodeGroupE_lowNibble_of_lowByte h
  rwa [decodeWith_key_irrelevant h0 hE .lowNibble .lowByte]

/-- Settles O5: the low byte fixes the low nibble, so the longer code is the special case; the groups without the
parameter have one decoder. -/
theorem lowNibbleKeyOnlyAddsWords : Obligations.LowNibbleKeyOnlyAddsWords := by
  refine ⟨fun w i => decodeWith_lowNibble_of_lowByte, fun w h0 hE => ?_, fun w => ⟨fun hg => ?_, fun hg => ?_⟩⟩
  · exact decodeWith_key_irrelevant (mt fieldG_eq_iff.mp h0) (mt fieldG_eq_iff.mp hE) _ _
  · rw [decodeWith_of_group0 _ (fieldG_eq_iff.mpr hg)]
    simp only [decodeGroup0, fieldN_eq_iff]
    exact ⟨fun h => by simp [h], fun h => by simp [h], fun h0 hE => ⟨.group0 w, by simp [h0, hE]⟩⟩
  · rw [decodeWith_of_groupE _ (fieldG_eq_iff.mpr hg)]
    simp only [decodeGroupE, fieldN_eq_iff]
    exact ⟨fun h => ⟨fieldX w, val_fieldX w, by simp [h]⟩, fun h => ⟨fieldX w, val_fieldX w, by simp [h]⟩,
      fun hE h1 => ⟨.groupE w, by simp [hE, h1]⟩⟩

/-! ### Unexamined bits, and sample words -/

theorem ofNat_eq_formatXK_group0 (x : Reg) (kk : Byte) :
    BitVec.ofNat 16 (kk.toNat + x.val * 256) = formatXK 0x0#4 x kk := by
  rw [Nat.add_comm, ← Nat.zero_add (x.val * 256), ← Nat.zero_mul 4096]
  exact ofNat_eq_formatXK 0x0#4 x kk

/-- Settles O4: the numbers are words of the formats whose unexamined nibble is free. -/
theorem unexaminedBitsPlayNoPart : Obligations.UnexaminedBitsPlayNoPart := by
  intro x y z
  have hcls : BitVec.ofNat 16 (0x00E0 + x.val * 256) = formatXK 0x0#4 x 0xE0#8 := ofNat_eq_formatXK_group0 x 0xE0#8
  have hret : BitVec.ofNat 16 (0x00EE + x.val * 256) = formatXK 0x0#4 x 0xEE#8 := ofNat_eq_formatXK_group0 x 0xEE#8
  have hse : BitVec.ofNat 16 (0x5000 + x.val * 256 + y.val * 16 + z.val) = formatXYN 0x5#4 x y (regBits z) :=
    ofNat_eq_formatXYN 0x5#4 x y (regBits z)
  have hsne : BitVec.ofNat 16 (0x9000 + x.val * 256 + y.val * 16 + z.val) = formatXYN 0x9#4 x y (regBits z) :=
    ofNat_eq_formatXYN 0x9#4 x y (regBits z)
  have hshr : BitVec.ofNat 16 (0x8006 + x.val * 256 + z.val * 16) = formatXYN 0x8#4 x z 0x6#4 :=
    ofNat_eq_formatXYN_group8 x z 0x6#4
  have hshl : BitVec.ofNat 16 (0x800E + x.val * 256 + z.val * 16) = formatXYN 0x8#4 x z 0xE#4 :=
    ofNat_eq_formatXYN_group8 x z 0xE#4
  rw [hcls, hret, hse, hsne, hshr, hshl]
  exact ⟨decodesTo_cls x, decodesTo_ret x, decodesTo_seReg x y _, decodesTo_sneReg x y _, decodesTo_shr x z,
    decodesTo_shl x z⟩

/-- Settles O6, by running the decoder on each of the nineteen fixed words. -/
theorem sampleWordsDecodeAsWritten : Obligations.SampleWordsDecodeAsWritten := by
  unfold Obligations.SampleWordsDecodeAsWritten
  decide

end Sys2Proof.Machine

/-! ## The cycle (10_state.md R30) and the five faults (60_exceptions.md) -/

namespace Sys2Proof.Machine

/-! ### What execution and the cycle answer -/

/-- Every meaning answers a next state: the faults are next states too (R303). -/
theorem exec_answers_next (i : Instr) (s : State) : ∃ t, exec i s = .next t := by
  obtain ⟨c, -, h⟩ | ⟨-, t, h, -⟩ := exec_cases i s
  · exact ⟨_, h⟩
  · exact ⟨t, h⟩

/-- The cycle of a state that fetches `i` executes `i` (R30). -/
theorem cycleExecutes_of_fetches {s : State} {i : Instr} (h : fetches s i) : cycleExecutes s i := by
  obtain ⟨t, ht⟩ := exec_answers_next i (advance s)
  refine ⟨t, ht, fun hrun => ?_, fun hhalted => ?_⟩
  · rw [step_of_fetches h, ht, finishCycle, tickUnlessHalted_of_run hrun]
    rfl
  · rw [step_of_fetches h, ht, finishCycle, tickUnlessHalted_of_halted hhalted]

/-- A running core whose PC has no two bytes in memory takes AddressOutOfRange with FOP 0 (R43). -/
theorem step_of_fetch_outOfRange {s : State} (hrun : s.status = .run) (hpc : s.pc.toNat + 1 > 4095) :
    step s = .next (takeFault .addressOutOfRange s.pc 0x0000 (closeLoad s)) := by
  obtain ⟨h, -⟩ | ⟨-, -, h⟩ | ⟨-, h, -⟩ | ⟨i, ⟨-, h, -⟩, -⟩ := step_cases s
  · simp [hrun] at h
  · exact h
  · omega
  · omega

/-- A running core that fetches an illegal word takes DecodeFailure with that word (R300). -/
theorem step_of_decode_error {s : State} {e : Reject} (hrun : s.status = .run) (hpc : s.pc.toNat + 1 ≤ 4095)
    (he : decodeWith s.params.secKey (nextWord s) = .error e) :
    step s = .next (takeFault .decodeFailure s.pc (nextWord s) (closeLoad s)) := by
  obtain ⟨h, -⟩ | ⟨-, h, -⟩ | ⟨-, -, -, h⟩ | ⟨i, ⟨-, -, h⟩, -⟩ := step_cases s
  · simp [hrun] at h
  · omega
  · exact h
  · simp [he] at h

/-- A fault of the execute phase is taken at the fetch address, with the fetched word (R303). -/
theorem step_of_executeFault {s : State} {i : Instr} {c : Cause} (h : fetches s i) (hc : executeFault i s = some c) :
    step s = .next (takeFault c s.pc (nextWord s) (closeLoad s)) := by
  have hraise : exec i (advance s) = .next (raise c (advance s)) :=
    exec_of_executeFault (by rw [executeFault_advance, hc])
  rw [step_of_fetches h, hraise, raise_advance]
  rfl

/-- An instruction whose check passes completes, and the cycle ends with the tick (R30, R320). -/
theorem step_of_no_executeFault {s t : State} {i : Instr} (h : fetches s i) (hc : executeFault i s = none)
    (ht : exec i (advance s) = .next t) : step s = .next (tick t) := by
  obtain ⟨c, hfault, -⟩ | ⟨-, u, hu, hstatus, -⟩ := exec_cases i (advance s)
  · simp [hc] at hfault
  · cases ht.symm.trans hu
    exact step_of_exec_run h ht (hstatus.trans h.1)

/-- Settles O7: the four branches of the cycle, each answered by its own law. -/
theorem stepRunsDecodedInstruction : Obligations.StepRunsDecodedInstruction := fun _ =>
  ⟨step_of_halted, step_of_fetch_outOfRange, fun hrun hpc _ he => step_of_decode_error hrun hpc he,
    fun _ h => cycleExecutes_of_fetches h⟩

/-- Settles O8, by induction on the number of requests. -/
theorem haltedIsTerminal : Obligations.HaltedIsTerminal := by
  intro n s h
  induction n with
  | zero => rfl
  | succ n ih => rw [core_run_succ n (step_of_halted h), ih]

theorem step_answers_next (s : State) : ∃ t, step s = .next t := by
  obtain ⟨-, h⟩ | ⟨-, -, h⟩ | ⟨-, -, -, h⟩ | ⟨i, -, h⟩ := step_cases s
  · exact ⟨_, h⟩
  · exact ⟨_, h⟩
  · exact ⟨_, h⟩
  · obtain ⟨t, ht⟩ := exec_answers_next i (advance s)
    exact ⟨_, by rw [h, ht, finishCycle]⟩

/-- Settles O9: each branch of the cycle answers a next state, and so does every meaning. -/
theorem stepAlwaysAnswersNext : Obligations.StepAlwaysAnswersNext := step_answers_next

/-! ### The fault that is due (R304, R307) -/

theorem dueFault_of_fetch_outOfRange {s : State} (hpc : s.pc.toNat + 1 > 4095) :
    dueFault s = some (.addressOutOfRange, 0x0000) := if_pos hpc

theorem dueFault_of_decode_error {s : State} {e : Reject} (hpc : s.pc.toNat + 1 ≤ 4095)
    (he : decodeWith s.params.secKey (nextWord s) = .error e) : dueFault s = some (.decodeFailure, nextWord s) := by
  rw [dueFault, if_neg (by omega), show s.mem.word s.pc.toNat = nextWord s from rfl, he]

theorem dueFault_of_fetches {s : State} {i : Instr} (h : fetches s i) :
    dueFault s = (executeFault i s).map fun c => (c, nextWord s) := by
  obtain ⟨-, hpc, hdec⟩ := h
  rw [dueFault, if_neg (by omega), show s.mem.word s.pc.toNat = nextWord s from rfl, hdec]

/-- Everything the cycle of a running core can do, in the terms of the fault that is due: it takes that fault and does
nothing else, or an instruction whose check passes completes. -/
theorem step_run_cases {s : State} (hrun : s.status = .run) :
    (∃ c w, dueFault s = some (c, w) ∧ step s = .next (takeFault c s.pc w (closeLoad s))) ∨
    (dueFault s = none ∧ ∃ i, fetches s i ∧ executeFault i s = none) := by
  obtain ⟨h, -⟩ | ⟨-, hpc, h⟩ | ⟨-, hpc, ⟨e, he⟩, h⟩ | ⟨i, hf, -⟩ := step_cases s
  · simp [hrun] at h
  · exact .inl ⟨_, _, dueFault_of_fetch_outOfRange hpc, h⟩
  · exact .inl ⟨_, _, dueFault_of_decode_error hpc he, h⟩
  · have hdue := dueFault_of_fetches hf
    rcases hc : executeFault i s with _ | c
    · exact .inr ⟨by simp [hdue, hc], i, hf, hc⟩
    · exact .inl ⟨c, nextWord s, by simp [hdue, hc], step_of_executeFault hf hc⟩

/-- Settles O10: the cycle of a running core takes the fault that is due, and without one an instruction completes,
which leaves the control fields. -/
theorem cycleFaultsExactlyWhenDue : Obligations.CycleFaultsExactlyWhenDue := by
  intro s hrun
  obtain ⟨c, w, hdue, h⟩ | ⟨hdue, i, hf, hc⟩ := step_run_cases hrun
  · refine ⟨fun c' w' hdue' => ?_, fun hnone => ?_⟩
    · cases hdue.symm.trans hdue'
      exact h
    · simp [hdue] at hnone
  · refine ⟨fun c w hsome => by simp [hdue] at hsome, fun _ => ?_⟩
    obtain ⟨t, ht, hstatus, hcause, hfpc, hfop, hkey, -, hparams⟩ :=
      exec_of_no_executeFault (i := i) (s := advance s) (by rw [executeFault_advance, hc])
    exact ⟨tick t, step_of_no_executeFault hf hc ht, hstatus.trans hrun, hcause, hfpc, hfop, hkey, hparams⟩

/-! ### What a raised fault leaves (R303) -/

theorem faultsWith_raise (c : Cause) (s : State) : faultsWith c s (raise c s) :=
  ⟨rfl, rfl, rfl, rfl, rfl, rfl, fun _ => rfl⟩

/-- An instruction whose check fails is abandoned with none of its effects. -/
theorem exec_faultsWith {i : Instr} {s : State} {c : Cause} (h : executeFault i s = some c) :
    ∃ t, exec i s = .next t ∧ faultsWith c s t :=
  ⟨_, exec_of_executeFault h, faultsWith_raise c s⟩

/-- Settles O11: a failed check raises its fault, and raising writes the record alone. -/
theorem executeFaultsArePrecise : Obligations.ExecuteFaultsArePrecise := fun _ _ _ h => exec_faultsWith h

/-! ### The fault as `read_status` shows it (R32) -/

theorem readStatus_takeFault (c : Cause) (w : Word) (s : State) :
    readStatus (takeFault c s.pc w (closeLoad s)) = ⟨.halted, c.code, s.pc, w, s.st, s.dt⟩ := rfl

theorem readStatus_of_executeFault {s : State} {i : Instr} {c : Cause} (h : fetches s i) (hc : executeFault i s = some c) :
    ∃ t, step s = .next t ∧ readStatus t = ⟨.halted, c.code, s.pc, nextWord s, s.st, s.dt⟩ :=
  ⟨_, step_of_executeFault h hc, readStatus_takeFault c (nextWord s) s⟩

/-- Settles O59: row by row the condition is the check of the instruction, and the cause has its number. -/
theorem faultsReportTheirNumbers : Obligations.FaultsReportTheirNumbers := by
  intro s hrun
  refine ⟨fun hpc => ⟨_, step_of_fetch_outOfRange hrun hpc, readStatus_takeFault _ _ s⟩,
    fun e hpc he => ⟨_, step_of_decode_error hrun hpc he, readStatus_takeFault _ _ s⟩,
    fun nnn h hsp => readStatus_of_executeFault h (if_pos hsp),
    fun h hsp => readStatus_of_executeFault h (if_pos hsp), ?_,
    fun x y n h hn hi => readStatus_of_executeFault h (if_pos ⟨hn, hi⟩),
    fun x h hi => readStatus_of_executeFault h (if_pos hi), ?_⟩
  · rintro x (h | h) hx
    · exact readStatus_of_executeFault h (if_pos hx)
    · exact readStatus_of_executeFault h (if_pos hx)
  · rintro x (h | h) hi
    · exact readStatus_of_executeFault h (if_pos hi)
    · exact readStatus_of_executeFault h (if_pos hi)

end Sys2Proof.Machine

/-! ## The meanings where no fault is due, and the frame of each (10_state.md R26, R34) -/

namespace Sys2Proof.Machine

/-! ### The checks that hold, as conditions on the operands -/

theorem executeFault_call_eq_none {nnn : Addr12} {s : State} : executeFault (.call nnn) s = none ↔ s.sp.val < 16 := by
  have := s.sp.isLt
  simp [executeFault]
  omega

theorem executeFault_ret_eq_none {s : State} : executeFault .ret s = none ↔ 0 < s.sp.val := by
  simp [executeFault, Nat.pos_iff_ne_zero]

theorem executeFault_skp_eq_none {x : Reg} {s : State} :
    executeFault (.skp x) s = none ↔ ∃ k : Fin 16, (s.getV x).toNat = k.val := by
  simp only [executeFault, ite_eq_right_iff, reduceCtorEq, imp_false, Nat.not_lt]
  exact ⟨fun h => ⟨⟨_, Nat.lt_succ_of_le h⟩, rfl⟩, fun ⟨k, hk⟩ => hk ▸ Nat.le_of_lt_succ k.isLt⟩

theorem executeFault_sknp_eq_none {x : Reg} {s : State} :
    executeFault (.sknp x) s = none ↔ ∃ k : Fin 16, (s.getV x).toNat = k.val :=
  executeFault_skp_eq_none

theorem executeFault_drw_eq_none {x y : Reg} {n : Nat} {s : State} :
    executeFault (.drw x y n) s = none ↔ n = 0 ∨ s.i.toNat + n - 1 ≤ 4095 := by
  simp [executeFault]
  omega

theorem executeFault_ldB_eq_none {x : Reg} {s : State} : executeFault (.ldB x) s = none ↔ s.i.toNat + 2 ≤ 4095 := by
  simp [executeFault]

theorem executeFault_storeRegs_eq_none {x : Reg} {s : State} :
    executeFault (.storeRegs x) s = none ↔ s.i.toNat + x.val ≤ 4095 := by
  simp [executeFault]

theorem executeFault_loadRegs_eq_none {x : Reg} {s : State} :
    executeFault (.loadRegs x) s = none ↔ s.i.toNat + x.val ≤ 4095 :=
  executeFault_storeRegs_eq_none

/-! ### The meanings whose check holds -/

theorem exec_call_of_room (nnn : Addr12) {s : State} (h : s.sp.val < 16) :
    exec (.call nnn) s = .next
      { s with stack := s.stack.set s.sp.val s.pc, sp := ⟨s.sp.val + 1, by omega⟩, pc := zextAddr nnn } := by
  rw [exec_call, dif_pos h]

theorem exec_ret_of_entry {s : State} (h : 0 < s.sp.val) :
    exec .ret s = .next { s with sp := ⟨s.sp.val - 1, by omega⟩, pc := s.stack[s.sp.val - 1] } := by
  rw [exec_ret, dif_pos h]

theorem exec_skp_of_key {x : Reg} {s : State} {k : Fin 16} (h : (s.getV x).toNat = k.val) :
    exec (.skp x) s = .next (skipIf s.key[k] s) := by
  rw [exec_skp, keyOf_eq_some.mpr h]

theorem exec_sknp_of_key {x : Reg} {s : State} {k : Fin 16} (h : (s.getV x).toNat = k.val) :
    exec (.sknp x) s = .next (skipIf (!s.key[k]) s) := by
  rw [exec_sknp, keyOf_eq_some.mpr h]

theorem exec_drw_of_inRange (x y : Reg) {n : Nat} {s : State} (h : n = 0 ∨ s.i.toNat + n - 1 ≤ 4095) :
    exec (.drw x y n) s = .next ({ s with screen := (drawn x y n s).1 }.setV 15 (flagByte (drawn x y n s).2)) := by
  rw [exec_drw, if_pos h, vf_eq]

theorem exec_ldB_of_inRange (x : Reg) {s : State} (h : s.i.toNat + 2 ≤ 4095) :
    exec (.ldB x) s = .next { s with mem := s.mem.writeBytes s.i.toNat (bcdDigits (s.getV x)) } := by
  rw [exec_ldB, if_pos h]

theorem exec_storeRegs_of_inRange {x : Reg} {s : State} (h : s.i.toNat + x.val ≤ 4095) :
    exec (.storeRegs x) s = .next { s with mem := s.mem.writeBytes s.i.toNat (regRun s x) } := by
  rw [exec_storeRegs, if_pos h]

theorem exec_loadRegs_of_inRange {x : Reg} {s : State} (h : s.i.toNat + x.val ≤ 4095) :
    exec (.loadRegs x) s = .next (loadRun s 0 (s.mem.bytes s.i.toNat (x.val + 1))) := by
  rw [exec_loadRegs, if_pos h]

/-! ### The frame -/

/-- What `t` keeps of `s` when the instruction `i` writes only what its row of R26's table names; the fields that no
instruction writes are those of `exec_of_no_executeFault`. -/
structure Frame (i : Instr) (s t : State) : Prop where
  reg : ∀ r, instrWritesReg i r = false → t.getV r = s.getV r
  index : .index ∉ instrWrites i → t.i = s.i
  pc : .programCounter ∉ instrWrites i → t.pc = s.pc
  callStack : .callStack ∉ instrWrites i → t.sp = s.sp ∧ t.stack = s.stack
  delayTimer : .delayTimer ∉ instrWrites i → t.dt = s.dt
  soundTimer : .soundTimer ∉ instrWrites i → t.st = s.st
  memory : .memory ∉ instrWrites i → t.mem = s.mem
  screen : .screen ∉ instrWrites i → t.screen = s.screen
  randomInput : .randomInput ∉ instrWrites i → t.rndIn = s.rndIn ∧ t.rndDraws = s.rndDraws

/-- Two changes one after the other keep what both keep. -/
theorem Frame.trans {i : Instr} {s t u : State} (h : Frame i s t) (h' : Frame i t u) : Frame i s u where
  reg r hr := (h'.reg r hr).trans (h.reg r hr)
  index hi := (h'.index hi).trans (h.index hi)
  pc hi := (h'.pc hi).trans (h.pc hi)
  callStack hi := ⟨(h'.callStack hi).1.trans (h.callStack hi).1, (h'.callStack hi).2.trans (h.callStack hi).2⟩
  delayTimer hi := (h'.delayTimer hi).trans (h.delayTimer hi)
  soundTimer hi := (h'.soundTimer hi).trans (h.soundTimer hi)
  memory hi := (h'.memory hi).trans (h.memory hi)
  screen hi := (h'.screen hi).trans (h.screen hi)
  randomInput hi :=
    ⟨(h'.randomInput hi).1.trans (h.randomInput hi).1, (h'.randomInput hi).2.trans (h.randomInput hi).2⟩

/-- A change of the registers alone meets the frame of an instruction that may write those registers. -/
theorem Frame.of_only_v {i : Instr} {s t : State} (hv : t = { s with v := t.v })
    (hreg : ∀ r, instrWritesReg i r = false → t.getV r = s.getV r) : Frame i s t := by
  rw [hv] at hreg ⊢
  exact ⟨hreg, fun _ => rfl, fun _ => rfl, fun _ => ⟨rfl, rfl⟩, fun _ => rfl, fun _ => rfl, fun _ => rfl, fun _ => rfl,
    fun _ => ⟨rfl, rfl⟩⟩

/-- A change of PC alone meets the frame of an instruction that may write PC. -/
theorem Frame.of_only_pc {i : Instr} {s t : State} (hpc : t = { s with pc := t.pc })
    (hi : .programCounter ∈ instrWrites i) : Frame i s t := by
  rw [hpc]
  exact ⟨fun _ _ => rfl, fun _ => rfl, fun h => absurd hi h, fun _ => ⟨rfl, rfl⟩, fun _ => rfl, fun _ => rfl, fun _ => rfl,
    fun _ => rfl, fun _ => ⟨rfl, rfl⟩⟩

theorem Frame.setV {i : Instr} (s : State) {x : Reg} (b : Byte) (hx : ∀ r, instrWritesReg i r = false → r ≠ x) :
    Frame i s (s.setV x b) :=
  .of_only_v rfl fun r hr => getV_setV_of_ne s b (hx r hr).symm

theorem Frame.skipIf {i : Instr} (c : Bool) (s : State) (hi : .programCounter ∈ instrWrites i) :
    Frame i s (skipIf c s) :=
  .of_only_pc (changesOnlyPc_skipIf c s).1 hi

theorem Frame.flagAndResult {i : Instr} (ord : Config.VfOrder) (flag result : Byte → Byte → Byte) {x y : Reg} (s : State)
    (hx : ∀ r, instrWritesReg i r = false → r ≠ x ∧ r ≠ 15) : Frame i s (flagAndResult ord flag result x y s) :=
  .of_only_v (flagAndResult_only_v ord flag result x y s) fun r hr =>
    flagAndResult_getV_of_ne ord flag result s (hx r hr).1 (hx r hr).2

/-- An instruction whose check holds completes within the frame of its row. -/
theorem exec_frame {i : Instr} {s : State} (h : executeFault i s = none) : ∃ t, exec i s = .next t ∧ Frame i s t := by
  cases i
  case seByte | sneByte | seReg | sneReg => exact ⟨_, rfl, .skipIf _ s (by simp [instrWrites])⟩
  case jp | jpV0 => exact ⟨_, rfl, .of_only_pc rfl (by simp [instrWrites])⟩
  case ldByte | addByte | ldReg | orReg | andReg | xorReg | ldVxDt =>
    exact ⟨_, rfl, .setV s _ (by simp [instrWritesReg])⟩
  case addReg | subReg | subnReg | shr | shl =>
    exact ⟨_, rfl, .flagAndResult _ _ _ s (by simp [instrWritesReg])⟩
  case call nnn =>
    refine ⟨_, exec_call_of_room nnn (executeFault_call_eq_none.mp h), ?_⟩
    constructor <;> simp [instrWrites, State.getV]
  case ret =>
    refine ⟨_, exec_ret_of_entry (executeFault_ret_eq_none.mp h), ?_⟩
    constructor <;> simp [instrWrites, State.getV]
  case skp x =>
    obtain ⟨k, hk⟩ := executeFault_skp_eq_none.mp h
    exact ⟨_, exec_skp_of_key hk, .skipIf _ s (by simp [instrWrites])⟩
  case sknp x =>
    obtain ⟨k, hk⟩ := executeFault_sknp_eq_none.mp h
    exact ⟨_, exec_sknp_of_key hk, .skipIf _ s (by simp [instrWrites])⟩
  case ldVxK x =>
    refine ⟨_, exec_ldVxK x s, ?_⟩
    split
    · exact .setV s _ (by simp [instrWritesReg])
    · exact .of_only_pc rfl (by simp [instrWrites])
  case drw x y n =>
    have hscreen : Frame (.drw x y n) s { s with screen := (drawn x y n s).1 } := by
      constructor <;> simp [instrWrites, State.getV]
    exact ⟨_, exec_drw_of_inRange x y (executeFault_drw_eq_none.mp h), hscreen.trans (.setV _ _ (by simp [instrWritesReg]))⟩
  case rnd x kk =>
    have hinput : Frame (.rnd x kk) s (rndSampled s) := by
      rw [rndSampled_only_input]
      constructor <;> simp [instrWrites, State.getV]
    exact ⟨_, rfl, hinput.trans (.setV _ _ (by simp [instrWritesReg]))⟩
  case ldB x =>
    refine ⟨_, exec_ldB_of_inRange x (executeFault_ldB_eq_none.mp h), ?_⟩
    constructor <;> simp [instrWrites, State.getV]
  case storeRegs x =>
    refine ⟨_, exec_storeRegs_of_inRange (executeFault_storeRegs_eq_none.mp h), ?_⟩
    constructor <;> simp [instrWrites, State.getV]
  case loadRegs x =>
    refine ⟨_, exec_loadRegs_of_inRange (executeFault_loadRegs_eq_none.mp h), .of_only_v (loadRun_only_v _ _ _) fun r hr => ?_⟩
    rw [loadRun_getV, if_neg]
    simp [instrWritesReg] at hr ⊢
    omega
  case cls | ldI | addI | ldF | ldDtVx | ldStVx =>
    refine ⟨_, rfl, ?_⟩
    constructor <;> simp [instrWrites, State.getV]

/-- An instruction that is executed where its check holds keeps its frame and the fields that none writes. -/
theorem exec_frame_of_next {i : Instr} {s t : State} (h : executeFault i s = none) (ht : exec i s = .next t) :
    Frame i s t ∧ t.status = s.status ∧ t.fcause = s.fcause ∧ t.fpc = s.fpc ∧ t.fop = s.fop ∧ t.key = s.key ∧
      t.loadOpen = s.loadOpen ∧ t.params = s.params := by
  obtain ⟨u, hu, hframe⟩ := exec_frame h
  obtain ⟨w, hw, hcontrol⟩ := exec_of_no_executeFault h
  cases ht.symm.trans hu
  cases ht.symm.trans hw
  exact ⟨hframe, hcontrol⟩

/-! ### The statements -/

/-- Settles O16, instruction by instruction: the writes of each are those of its row. -/
theorem instructionsWriteOnlyTheirTableRow : Obligations.InstructionsWriteOnlyTheirTableRow := by
  intro i s h
  obtain ⟨t, ht, hframe⟩ := exec_frame h
  obtain ⟨-, hstatus, hcause, hfpc, hfop, hkey, hload, hparams⟩ := exec_frame_of_next h ht
  exact ⟨t, ht, hframe.reg, hframe.index, hframe.pc, hframe.callStack, hframe.delayTimer, hframe.soundTimer,
    fun hi a => by rw [hframe.memory hi], hframe.screen, hframe.randomInput, hkey, hstatus, hcause, hfpc, hfop, hload,
    hparams⟩

/-- A flag write stores one of two bytes (R11). -/
theorem flagByte_eq_zero_or_one (c : Bool) : flagByte c = 0x00 ∨ flagByte c = 0x01 := by
  cases c
  · exact .inl rfl
  · exact .inr rfl

/-- Settles O17: where VF is not the destination, it ends as a flag byte. -/
theorem flagIsZeroOrOne : Obligations.FlagIsZeroOrOne := by
  rintro i s t h ht (⟨x, y, hx, hi⟩ | ⟨x, y, n, rfl⟩)
  · rcases hi with rfl | rfl | rfl | rfl | rfl
    all_goals
      cases ht
      rw [flagAndResult_getV_flag _ _ _ s hx]
      exact flagByte_eq_zero_or_one _
  · rw [exec_drw_of_inRange x y (executeFault_drw_eq_none.mp h)] at ht
    cases ht
    rw [getV_setV_self]
    exact flagByte_eq_zero_or_one _

/-- What DT holds before the tick of a cycle: what `LD DT,Vx` wrote, else what it held (R191). -/
theorem exec_dt {i : Instr} {s t : State} (h : executeFault i s = none) (ht : exec i s = .next t) :
    t.dt = match i with | .ldDtVx x => s.getV x | _ => s.dt := by
  cases i
  case ldDtVx x =>
    cases ht
    rfl
  all_goals exact (exec_frame_of_next h ht).1.delayTimer (by simp [instrWrites])

/-- What ST holds before the tick of a cycle: what `LD ST,Vx` wrote, else what it held (R192). -/
theorem exec_st {i : Instr} {s t : State} (h : executeFault i s = none) (ht : exec i s = .next t) :
    t.st = match i with | .ldStVx x => s.getV x | _ => s.st := by
  cases i
  case ldStVx x =>
    cases ht
    rfl
  all_goals exact (exec_frame_of_next h ht).1.soundTimer (by simp [instrWrites])

/-- A cycle that faults, and a request in HALTED, leave the timers (R303, R309). -/
theorem step_timers_of_no_completion {s : State} (h : s.status = .halted ∨ dueFault s ≠ none) :
    ∃ t, step s = .next t ∧ t.dt = s.dt ∧ t.st = s.st := by
  rcases hstatus : s.status with _ | _
  · obtain ⟨c, w, -, hstep⟩ | ⟨hdue, -⟩ := step_run_cases hstatus
    · exact ⟨_, hstep, rfl, rfl⟩
    · simp [hstatus, hdue] at h
  · exact ⟨s, step_of_halted hstatus, rfl, rfl⟩

/-- Settles O18: a cycle that completes ends with the tick, and no other writes a timer. -/
theorem timersTickOncePerCompletedCycle : Obligations.TimersTickOncePerCompletedCycle := by
  refine ⟨fun s i hf hdue => ?_, fun s => step_timers_of_no_completion, rfl, rfl⟩
  have hc : executeFault i s = none := by simpa [dueFault_of_fetches hf] using hdue
  have hc' : executeFault i (advance s) = none := by rw [executeFault_advance, hc]
  obtain ⟨t, ht, -⟩ := exec_frame hc'
  refine ⟨tick t, step_of_no_executeFault hf hc ht, ?_, ?_⟩
  · rw [tick_dt, toNat_tickTimer, exec_dt hc' ht]
    cases i <;> rfl
  · rw [tick_st, toNat_tickTimer, exec_st hc' ht]
    cases i <;> rfl

end Sys2Proof.Machine

/-! ## The invariant of the machine (10_state.md, 60_exceptions.md, 70_reset_and_hazards.md) -/

namespace Sys2Proof.Machine

/-! ### At reset -/

theorem inv_resetWith (p : Config.Params) : (State.resetWith p).Inv where
  memCanonical := rfl
  pcBound := show (0x0200 : Word).toNat ≤ 0x10FE by decide
  stackBound k := by simp [State.resetWith, State.reset]
  runRecord _ := ⟨rfl, rfl, rfl⟩
  haltedRecord := nofun
  openIsReset _ := rfl

/-- Settles O12: the reset state of any configuration has empty memory entries, PC 0x200, a stack of zeros, no record. -/
theorem invariantHoldsAtReset : Obligations.InvariantHoldsAtReset := ⟨inv_resetWith defaultParams, inv_resetWith⟩

/-! ### What an instruction that completes keeps -/

/-- PC stays at most 0x10FE: only `JP V0,addr` puts more than 0x1002 there (R12, derived there). -/
theorem exec_pc_le {i : Instr} {s t : State} (h : executeFault i s = none) (ht : exec i s = .next t)
    (hlo : 2 ≤ s.pc.toNat) (hhi : s.pc.toNat ≤ 0x1000) (hstack : ∀ k : Fin 16, (s.stack[k]).toNat ≤ 0x1000) :
    t.pc.toNat ≤ 0x10FE := by
  have hskip : ∀ c, (skipIf c s).pc.toNat ≤ 0x10FE := by
    intro c
    rw [toNat_pc_skipIf]
    split <;> omega
  cases i
  case seByte | sneByte | seReg | sneReg =>
    cases ht
    exact hskip _
  case skp x =>
    obtain ⟨k, hk⟩ := executeFault_skp_eq_none.mp h
    cases (exec_skp_of_key hk).symm.trans ht
    exact hskip _
  case sknp x =>
    obtain ⟨k, hk⟩ := executeFault_sknp_eq_none.mp h
    cases (exec_sknp_of_key hk).symm.trans ht
    exact hskip _
  case jp nnn =>
    cases ht
    have := nnn.isLt
    show (zextAddr nnn).toNat ≤ _
    rw [toNat_zextAddr]
    omega
  case jpV0 nnn =>
    cases ht
    have := nnn.isLt
    have := (s.getV 0).isLt
    show (zextByte (s.getV 0) + zextAddr nnn).toNat ≤ _
    rw [BitVec.toNat_add, toNat_zextByte, toNat_zextAddr]
    omega
  case call nnn =>
    cases (exec_call_of_room nnn (executeFault_call_eq_none.mp h)).symm.trans ht
    have := nnn.isLt
    show (zextAddr nnn).toNat ≤ _
    rw [toNat_zextAddr]
    omega
  case ret =>
    cases (exec_ret_of_entry (executeFault_ret_eq_none.mp h)).symm.trans ht
    have := hstack ⟨s.sp.val - 1, by omega⟩
    exact Nat.le_trans this (by decide)
  case ldVxK x =>
    cases (exec_ldVxK x s).symm.trans ht
    split
    · exact Nat.le_trans hhi (by decide)
    · show (s.pc - 2).toNat ≤ _
      bv_omega
  all_goals
    rw [(exec_frame_of_next h ht).1.pc (by simp [instrWrites])]
    omega

/-- A stack entry is a return address: `CALL` alone writes one, PC (R15, R101). -/
theorem exec_stack_le {i : Instr} {s t : State} (h : executeFault i s = none) (ht : exec i s = .next t)
    (hpc : s.pc.toNat ≤ 0x1000) (hstack : ∀ k : Fin 16, (s.stack[k]).toNat ≤ 0x1000) (k : Fin 16) :
    (t.stack[k]).toNat ≤ 0x1000 := by
  cases i
  case call nnn =>
    cases (exec_call_of_room nnn (executeFault_call_eq_none.mp h)).symm.trans ht
    simp only [Fin.getElem_fin, Vector.getElem_set]
    split
    · exact hpc
    · exact hstack k
  case ret =>
    cases (exec_ret_of_entry (executeFault_ret_eq_none.mp h)).symm.trans ht
    exact hstack k
  all_goals
    rw [((exec_frame_of_next h ht).1.callStack (by simp [instrWrites])).2]
    exact hstack k

/-- A store inside memory keeps the canonical form. -/
theorem exec_mem_wf {i : Instr} {s t : State} (h : executeFault i s = none) (ht : exec i s = .next t)
    (hmem : s.mem.wf = true) : t.mem.wf = true := by
  cases i
  case ldB x =>
    have hi := executeFault_ldB_eq_none.mp h
    cases (exec_ldB_of_inRange x hi).symm.trans ht
    exact Memory.wf_writeBytes _ (by rw [length_bcdDigits]; omega) hmem
  case storeRegs x =>
    have hi := executeFault_storeRegs_eq_none.mp h
    cases (exec_storeRegs_of_inRange hi).symm.trans ht
    exact Memory.wf_writeBytes _ (by rw [length_regRun]; omega) hmem
  all_goals
    rw [(exec_frame_of_next h ht).1.memory (by simp [instrWrites])]
    exact hmem

/-! ### The step -/

/-- The fault that is due stays due in the wreck: taking it changes nothing that `dueFault` looks at (R303). -/
theorem dueFault_takeFault (c : Cause) (w : Word) (s : State) :
    dueFault (takeFault c s.pc w (closeLoad s)) = dueFault s := rfl

theorem State.Inv.takeFault {s : State} {c : Cause} {w : Word} (h : s.Inv) (hdue : dueFault s = some (c, w)) :
    (takeFault c s.pc w (closeLoad s)).Inv where
  memCanonical := h.memCanonical
  pcBound := h.pcBound
  stackBound := h.stackBound
  runRecord := nofun
  haltedRecord _ := ⟨(dueFault_takeFault c w s).trans hdue, rfl, rfl⟩
  openIsReset := nofun

/-- The invariant of a running core after an instruction completes and the timers tick. -/
theorem State.Inv.tick_exec {s t : State} {i : Instr} (h : s.Inv) (hf : fetches s i) (hc : executeFault i s = none)
    (ht : exec i (advance s) = .next t) : (tick t).Inv := by
  obtain ⟨hrun, hpc, -⟩ := hf
  have hc' : executeFault i (advance s) = none := by rw [executeFault_advance, hc]
  have hadv : (advance s).pc.toNat = s.pc.toNat + 2 := by
    rw [advance_pc]
    bv_omega
  obtain ⟨-, hstatus, hcause, hfpc, hfop, -, hload, -⟩ := exec_frame_of_next hc' ht
  refine ⟨exec_mem_wf (t := t) hc' ht h.memCanonical, exec_pc_le (t := t) hc' ht (by omega) (by omega) h.stackBound,
    exec_stack_le (t := t) hc' ht (by omega) h.stackBound, fun _ => ?_, fun hhalted => ?_, fun hopen => ?_⟩
  · obtain ⟨h1, h2, h3⟩ := h.runRecord hrun
    exact ⟨hcause.trans h1, hfpc.trans h2, hfop.trans h3⟩
  · cases (hstatus.trans hrun).symm.trans hhalted
  · cases hload.symm.trans hopen

theorem State.Inv.step {s t : State} (h : s.Inv) (ht : step s = .next t) : t.Inv := by
  rcases hstatus : s.status with _ | _
  · obtain ⟨c, w, hdue, hstep⟩ | ⟨-, i, hf, hc⟩ := step_run_cases hstatus
    · cases hstep.symm.trans ht
      exact h.takeFault hdue
    · obtain ⟨u, hu⟩ := exec_answers_next i (advance s)
      cases (step_of_no_executeFault hf hc hu).symm.trans ht
      exact h.tick_exec hf hc hu
  · cases (step_of_halted hstatus).symm.trans ht
    exact h

/-- Settles O13: a halted core stays, a due fault writes the record that names it, and a completed instruction keeps
memory, PC and stack in their bounds. -/
theorem everyStepKeepsInvariant : Obligations.EveryStepKeepsInvariant := fun _ _ => State.Inv.step

/-! ### The host operations -/

/-- The invariant does not look at the host's inputs, the keypad and the pending random bytes. -/
theorem State.Inv.withInputs {s : State} (h : s.Inv) (k : Keypad) (bs : List Byte) :
    State.Inv { s with key := k, rndIn := bs } where
  memCanonical := h.memCanonical
  pcBound := h.pcBound
  stackBound := h.stackBound
  runRecord := h.runRecord
  haltedRecord := h.haltedRecord
  openIsReset hopen := congrArg (fun u : State => { u with key := k, rndIn := bs }) (h.openIsReset hopen)

/-- A load keeps the invariant: it is open in the reset state only, and the program ends at 0xFFF (R402). -/
theorem State.Inv.load {s : State} {bytes : List Byte} (h : s.Inv) (hopen : s.loadOpen = true)
    (hlen : bytes.length ≤ Config.progMax) :
    State.Inv { s with mem := s.mem.writeBytes Config.progBase bytes, loadOpen := false } where
  memCanonical := Memory.wf_writeBytes _ (by simp only [Config.progBase, Config.progMax] at *; omega) h.memCanonical
  pcBound := h.pcBound
  stackBound := h.stackBound
  runRecord := h.runRecord
  haltedRecord hhalted := by
    obtain ⟨-, -, hclosed⟩ := h.haltedRecord hhalted
    simp [hopen] at hclosed
  openIsReset := nofun

/-- Everything `load` can do (R402, D15). -/
theorem hostLoad_cases (bytes : List Byte) (s : State) :
    (s.loadOpen = false ∧ hostStep (.load bytes) s = .refused .loadNotOpen) ∨
    (s.loadOpen = true ∧ bytes.length > 3584 ∧ hostStep (.load bytes) s = .refused .programTooLong) ∨
    (s.loadOpen = true ∧ bytes.length ≤ 3584 ∧
      hostStep (.load bytes) s = .next { s with mem := s.mem.writeBytes 0x200 bytes, loadOpen := false }) := by
  show (_ ∧ hostLoad bytes s = _) ∨ (_ ∧ _ ∧ hostLoad bytes s = _) ∨ (_ ∧ _ ∧ hostLoad bytes s = _)
  unfold hostLoad
  rcases hopen : s.loadOpen with _ | _
  · exact .inl ⟨rfl, rfl⟩
  · by_cases hlen : bytes.length > 3584
    · exact .inr (.inl ⟨rfl, hlen, if_pos hlen⟩)
    · exact .inr (.inr ⟨rfl, by omega, if_neg hlen⟩)

/-- `cycle(rnd_in)` is a step with the byte alone on the input, which is then put back (log 23). -/
theorem hostCycle_of_step {b : Byte} {s t : State} (h : step { s with rndIn := [b] } = .next t) :
    hostStep (.cycle b) s = .next { t with rndIn := s.rndIn } := by
  show hostCycle b s = _
  rw [hostCycle, h]

theorem State.Inv.hostStep {op : HostOp} {s t : State} (h : s.Inv) (ht : hostStep op s = .next t) : t.Inv := by
  cases op with
  | reset =>
    cases ht
    exact inv_resetWith s.params
  | load bytes =>
    obtain ⟨-, e⟩ | ⟨-, -, e⟩ | ⟨hopen, hlen, e⟩ := hostLoad_cases bytes s
    · cases e.symm.trans ht
    · cases e.symm.trans ht
    · cases e.symm.trans ht
      exact h.load hopen hlen
  | setKeypad k =>
    cases ht
    exact h.withInputs k s.rndIn
  | cycle b =>
    obtain ⟨u, hu⟩ := step_answers_next { s with rndIn := [b] }
    cases (hostCycle_of_step hu).symm.trans ht
    exact ((h.withInputs s.key [b]).step hu).withInputs u.key s.rndIn

/-- Settles O14: `reset` installs a state that meets the invariant, `load` stays inside memory, and the other two change
inputs that the invariant does not look at, around a step that keeps it. -/
theorem everyHostOperationKeepsInvariant : Obligations.EveryHostOperationKeepsInvariant :=
  fun _ _ _ => State.Inv.hostStep

/-- Settles O15, by induction on how the state is reached. -/
theorem reachableStatesMeetInvariant : Obligations.ReachableStatesMeetInvariant := by
  intro s hs
  obtain ⟨t, ht⟩ := step_answers_next s
  refine ⟨?_, t, ht, .step hs ht⟩
  clear ht t
  induction hs with
  | reset p => exact inv_resetWith p
  | host op _ ht ih => exact ih.hostStep ht
  | step _ ht ih => exact ih.step ht

end Sys2Proof.Machine

/-! ## Control flow (40_control_flow.md): `CALL`, `RET`, the skips between registers, `JP V0,addr` -/

namespace Sys2Proof.Machine

/-! ### Calls and returns -/

/-- Settles O26: with room the entry at SP alone is written, and at SP = 16 the check fails. -/
theorem callPushesReturnAddress : Obligations.CallPushesReturnAddress := by
  intro nnn s
  have hword : BitVec.ofNat 16 (0x2000 + nnn.toNat) = formatA 0x2#4 nnn := ofNat_eq_formatA 0x2#4 nnn
  refine ⟨?_, fun hsp => ⟨_, exec_call_of_room nnn hsp, toNat_zextAddr nnn, rfl, fun k => ?_, rfl, fun _ => rfl⟩,
    fun hsp => exec_faultsWith (if_pos hsp)⟩
  · rw [hword]
    exact decodesTo_call nnn
  · simp only [Fin.getElem_fin, Vector.getElem_set, eq_comm]

/-- Settles O27: with an entry PC takes the one under SP, which stays, and at SP = 0 the check fails. -/
theorem retPopsReturnAddress : Obligations.RetPopsReturnAddress := by
  intro s
  refine ⟨decodesTo_ret 0, fun k hk => ⟨_, exec_ret_of_entry (by omega), ?_, ?_, rfl, fun _ => rfl⟩,
    fun hsp => exec_faultsWith (if_pos hsp)⟩
  · simp [hk]
  · simp [hk]

theorem execAll_cons {i : Instr} {s t : State} (is : List Instr) (h : exec i s = .next t) :
    execAll (i :: is) s = execAll is t := by
  rw [execAll, h]

theorem execAll_append {is : List Instr} {s t : State} (js : List Instr) (h : execAll is s = .next t) :
    execAll (is ++ js) s = execAll js t := by
  induction is generalizing s with
  | nil =>
    cases h
    rfl
  | cons i is ih =>
    obtain ⟨u, hu⟩ := exec_answers_next i s
    rw [execAll_cons is hu] at h
    rw [List.cons_append, execAll_cons _ hu, ih h]

/-- The state that a call leaves. -/
def called (s : State) (nnn : Addr12) (h : s.sp.val < 16) : State :=
  { s with stack := s.stack.set s.sp.val s.pc, sp := ⟨s.sp.val + 1, by omega⟩, pc := zextAddr nnn }

theorem exec_call_eq_called {s : State} (nnn : Addr12) (h : s.sp.val < 16) :
    exec (.call nnn) s = .next (called s nnn h) := exec_call_of_room nnn h

theorem called_stack {s : State} {nnn : Addr12} (h : s.sp.val < 16) (k : Fin 16) :
    (called s nnn h).stack[k] = if k.val = s.sp.val then s.pc else s.stack[k] := by
  simp only [called, Fin.getElem_fin, Vector.getElem_set, eq_comm]

/-- A return undoes a call when what ran in between left all but the stack, and of the stack the entry of the call. -/
theorem exec_ret_of_called {s : State} {nnn : Addr12} (h : s.sp.val < 16) (stack : Vector Word 16)
    (hentry : stack[s.sp.val] = s.pc) :
    exec .ret { called s nnn h with stack := stack } = .next { s with stack := stack } := by
  rw [exec_ret_of_entry (Nat.succ_pos _)]
  simp only [called, Nat.add_sub_cancel, hentry]

/-- Settles O28, by induction on the targets: the calls and returns inside bring back the state that the outer call
left but for the entries above it, and then the outer return pops the outer call's entry. -/
theorem nestedCallsUnwind : Obligations.NestedCallsUnwind := by
  intro targets
  induction targets with
  | nil => exact fun s _ => ⟨s, rfl, rfl, rfl, fun _ _ => rfl, rfl⟩
  | cons nnn targets ih =>
    intro s hfits
    rw [List.length_cons] at hfits
    have hroom : s.sp.val < 16 := by omega
    obtain ⟨t, ht, -, -, hbelow, hframe⟩ := ih (called s nnn hroom) (by simp only [called]; omega)
    have hentry : t.stack[s.sp.val] = s.pc := by
      have := hbelow ⟨s.sp.val, hroom⟩ (Nat.lt_succ_self _)
      rwa [called_stack, if_pos rfl] at this
    rw [hframe] at ht
    refine ⟨{ s with stack := t.stack }, ?_, rfl, rfl, fun k hk => ?_, rfl⟩
    · rw [List.length_cons, List.replicate_succ', ← List.append_assoc, List.map_cons, List.cons_append, List.cons_append,
        execAll_cons _ (exec_call_eq_called nnn hroom), execAll_append [.ret] ht,
        execAll_cons [] (exec_ret_of_called hroom t.stack hentry)]
      rfl
    · rw [hbelow k (Nat.lt_succ_of_lt hk), called_stack, if_neg (by omega)]

/-! ### Skips between registers, `JP V0,addr` -/

theorem exec_seReg (x y : Reg) (s : State) : exec (.seReg x y) s = .next (skipIf (s.getV x == s.getV y) s) := rfl

theorem exec_sneReg (x y : Reg) (s : State) : exec (.sneReg x y) s = .next (skipIf (s.getV x != s.getV y) s) := rfl

theorem exec_jpV0 (nnn : Addr12) (s : State) :
    exec (.jpV0 nnn) s = .next { s with pc := zextByte (s.getV 0) + zextAddr nnn } := rfl

/-- Settles O30: the words are format XYN of groups 0x5 and 0x9, and both meanings are the one conditional skip. -/
theorem skipOnRegister : Obligations.SkipOnRegister := by
  intro x y z s
  have hse : BitVec.ofNat 16 (0x5000 + x.val * 256 + y.val * 16 + z.val) = formatXYN 0x5#4 x y (regBits z) :=
    ofNat_eq_formatXYN 0x5#4 x y (regBits z)
  have hsne : BitVec.ofNat 16 (0x9000 + x.val * 256 + y.val * 16 + z.val) = formatXYN 0x9#4 x y (regBits z) :=
    ofNat_eq_formatXYN 0x9#4 x y (regBits z)
  rw [hse, hsne]
  refine ⟨decodesTo_seReg x y _, decodesTo_sneReg x y _, ⟨_, exec_seReg x y s, changesOnlyPc_skipIf _ s, ?_⟩,
    ⟨_, exec_sneReg x y s, changesOnlyPc_skipIf _ s, ?_⟩⟩
  · rw [toNat_pc_skipIf]
    simp only [beq_iff_eq]
  · rw [toNat_pc_skipIf]
    simp only [bne_iff_ne, ne_eq, ite_not]

/-- Settles O31: the sum of a byte and twelve bits is too small to wrap, and from 0xFFF on there are no two bytes to
fetch. -/
theorem jpV0AddsV0 : Obligations.JpV0AddsV0 := by
  intro nnn s
  have hword : BitVec.ofNat 16 (0xB000 + nnn.toNat) = formatA 0xB#4 nnn := ofNat_eq_formatA 0xB#4 nnn
  have hsum : (zextByte (s.getV 0) + zextAddr nnn).toNat = (s.getV 0).toNat + nnn.toNat := by
    have := nnn.isLt
    have := (s.getV 0).isLt
    rw [BitVec.toNat_add, toNat_zextByte, toNat_zextAddr]
    omega
  rw [hword]
  refine ⟨decodesTo_jpV0 nnn, _, exec_jpV0 nnn s, hsum, changesOnlyPc_setPc s _, fun hrun hpast => ?_⟩
  exact ⟨_, step_of_fetch_outOfRange hrun (by rw [hsum]; omega), rfl, rfl, rfl, rfl, rfl⟩

end Sys2Proof.Machine

/-! ## Keypad (47_keypad.md): `SKP`, `SKNP` and `LD Vx,K` -/

namespace Sys2Proof.Machine

/-- Group 0xE with its secondary code in the leading number (R62, R67). -/
theorem ofNat_eq_formatXK_groupE (x : Reg) (kk : Byte) :
    BitVec.ofNat 16 (0xE000 + kk.toNat + x.val * 256) = formatXK 0xE#4 x kk := by
  rw [← ofNat_eq_formatXK, Nat.add_right_comm]
  rfl

/-- Settles O47: the value names a key up to 15 and the two skips test it, and above 15 the check fails. -/
theorem keySkips : Obligations.KeySkips := by
  intro x s
  have hskp : BitVec.ofNat 16 (0xE09E + x.val * 256) = formatXK 0xE#4 x 0x9E#8 := ofNat_eq_formatXK_groupE x 0x9E#8
  have hsknp : BitVec.ofNat 16 (0xE0A1 + x.val * 256) = formatXK 0xE#4 x 0xA1#8 := ofNat_eq_formatXK_groupE x 0xA1#8
  rw [hskp, hsknp]
  refine ⟨decodesTo_skp x, decodesTo_sknp x, fun k hk => ⟨⟨_, exec_skp_of_key hk, changesOnlyPc_skipIf _ s, ?_⟩,
    ⟨_, exec_sknp_of_key hk, changesOnlyPc_skipIf _ s, ?_⟩⟩,
    fun hx => ⟨exec_faultsWith (if_pos hx), exec_faultsWith (if_pos hx)⟩⟩
  · rw [toNat_pc_skipIf]
  · rw [toNat_pc_skipIf]
    simp only [Bool.not_eq_true', ← Bool.not_eq_true, ite_not]

theorem exec_ldVxK_of_least (x : Reg) {s : State} {k : Fin 16} (hk : s.key[k] = true)
    (hleast : ∀ j : Fin 16, j < k → s.key[j] = false) :
    exec (.ldVxK x) s = .next (s.setV x (BitVec.ofNat 8 k.val)) := by
  rw [exec_ldVxK, firstKey_eq_some.mpr ⟨hk, hleast⟩]

theorem exec_ldVxK_of_no_key (x : Reg) {s : State} (hnone : ∀ k : Fin 16, s.key[k] = false) :
    exec (.ldVxK x) s = .next s.pcMinus2 := by
  rw [exec_ldVxK, firstKey_eq_none.mpr hnone]

/-- Settles O48: the scan finds the least pressed key, whose number fits a byte, and without one PC goes back. -/
theorem keyWaitTakesTheLeastKey : Obligations.KeyWaitTakesTheLeastKey := by
  intro x s
  have hword : BitVec.ofNat 16 (0xF00A + x.val * 256) = formatXK 0xF#4 x 0x0A#8 := ofNat_eq_formatXK_groupF x 0x0A#8
  rw [hword]
  refine ⟨decodesTo_ldVxK x, fun k hk hleast => ⟨_, exec_ldVxK_of_least x hk hleast, ?_, changesOnlyReg_setV s x _⟩,
    fun hnone => ⟨_, exec_ldVxK_of_no_key x hnone, BitVec.sub_add_cancel s.pc 2, changesOnlyPc_setPc s _⟩⟩
  rw [getV_setV_self, BitVec.toNat_ofNat]
  omega

end Sys2Proof.Machine

/-! ## Arithmetic with a flag and shifts (42_arithmetic_logic.md, 43_shifts.md) -/

namespace Sys2Proof.Machine

/-! ### Bytes as numbers -/

theorem toNat_flagByte (c : Prop) [Decidable c] : (flagByte (decide c)).toNat = if c then 1 else 0 := by
  by_cases h : c
  · simp [h]
  · simp [h]

theorem toNat_addFlag (a b : Byte) : (addFlag a b).toNat = if a.toNat + b.toNat > 255 then 1 else 0 := toNat_flagByte _

theorem toNat_subFlag (a b : Byte) : (subFlag a b).toNat = if a.toNat ≥ b.toNat then 1 else 0 := toNat_flagByte _

theorem toNat_subnFlag (a b : Byte) : (subnFlag a b).toNat = if b.toNat > a.toNat then 1 else 0 := toNat_flagByte _

/-- Bit 0 is the remainder that the right shift drops (R140). -/
theorem toNat_shrFlag (a : Byte) : (shrFlag a).toNat = a.toNat % 2 := by
  rw [shrFlag, BitVec.getLsbD, Nat.testBit_zero, toNat_flagByte]
  split <;> omega

/-- Bit 7 is the multiple of 128 that the left shift drops (R141). -/
theorem toNat_shlFlag (a : Byte) : (shlFlag a).toNat = a.toNat / 128 := by
  have := a.isLt
  rw [shlFlag, BitVec.getLsbD, Nat.testBit_eq_decide_div_mod_eq, toNat_flagByte]
  split <;> omega

theorem toNat_byte_add (a b : Byte) : (a + b).toNat = (a.toNat + b.toNat) % 256 := BitVec.toNat_add a b

theorem toNat_byte_sub (a b : Byte) : (a - b).toNat = (256 + a.toNat - b.toNat) % 256 := by
  have := b.isLt
  rw [BitVec.toNat_sub]
  omega

theorem toNat_shiftRight_one (a : Byte) : (a >>> 1).toNat = a.toNat / 2 := by
  rw [BitVec.toNat_ushiftRight, Nat.shiftRight_eq_div_pow]

theorem toNat_shiftLeft_one (a : Byte) : (a <<< 1).toNat = a.toNat * 2 % 256 := by
  rw [BitVec.toNat_shiftLeft, Nat.shiftLeft_eq]

/-! ### The five meanings -/

theorem exec_addReg (x y : Reg) (s : State) : exec (.addReg x y) s =
    .next (flagAndResult (sumOrder s.params.vfOrder) addFlag (fun a b => a + b) x y s) := rfl

theorem exec_subReg (x y : Reg) (s : State) : exec (.subReg x y) s =
    .next (flagAndResult s.params.vfOrder subFlag (fun a b => a - b) x y s) := rfl

theorem exec_subnReg (x y : Reg) (s : State) : exec (.subnReg x y) s =
    .next (flagAndResult s.params.vfOrder subnFlag (fun a b => b - a) x y s) := rfl

theorem exec_shr (x : Reg) (s : State) : exec (.shr x) s =
    .next (flagAndResult s.params.vfOrder (fun a _ => shrFlag a) (fun a _ => a >>> 1) x x s) := rfl

theorem exec_shl (x : Reg) (s : State) : exec (.shl x) s =
    .next (flagAndResult s.params.vfOrder (fun a _ => shlFlag a) (fun a _ => a <<< 1) x x s) := rfl

/-! ### The flag and result writes -/

section
variable (ord : Config.VfOrder) (flag result : Byte → Byte → Byte) (x y : Reg) (s : State)

theorem changesOnlyRegAndVf_flagAndResult : changesOnlyRegAndVf x s (flagAndResult ord flag result x y s) := by
  refine ⟨flagAndResult_only_v ord flag result x y s, fun r hx hf => flagAndResult_getV_of_ne ord flag result s hx hf, ?_⟩
  rw [flagAndResult_only_v]
  exact fun _ => rfl

/-- The destination ends as the result of the operands, where no VF is named and in the order of R33. -/
theorem flagAndResult_getV_plain_result (h : (x ≠ 15 ∧ y ≠ 15) ∨ ord = .resultLast) :
    (flagAndResult ord flag result x y s).getV x = result (s.getV x) (s.getV y) := by
  rcases h with ⟨hx, hy⟩ | rfl
  · exact flagAndResult_getV_result ord flag result s hx hy
  · rw [flagAndResult_resultLast_getV, if_pos rfl]

end

/-- In the order of R33 the sum of `ADD` follows it too. -/
theorem sumOrder_of_plain {x y : Reg} {ord : Config.VfOrder} (h : (x ≠ 15 ∧ y ≠ 15) ∨ ord = .resultLast) :
    (x ≠ 15 ∧ y ≠ 15) ∨ sumOrder ord = .resultLast :=
  h.imp_right fun h => by rw [h]; rfl

/-! ### The statements -/

/-- Settles O34: the flag is the carry of the operands, the result their sum of bytes. -/
theorem addRegSetsCarry : Obligations.AddRegSetsCarry := by
  intro x y s
  have hword : BitVec.ofNat 16 (0x8004 + x.val * 256 + y.val * 16) = formatXYN 0x8#4 x y 0x4#4 :=
    ofNat_eq_formatXYN_group8 x y 0x4#4
  rw [hword]
  refine ⟨decodesTo_addReg x y, _, exec_addReg x y s, fun h => ?_, fun hx => ?_, changesOnlyRegAndVf_flagAndResult _ _ _ x y s⟩
  · rw [flagAndResult_getV_plain_result _ _ _ x y s (sumOrder_of_plain h), toNat_byte_add]
  · rw [flagAndResult_getV_flag _ _ _ s hx, toNat_addFlag]

/-- Settles O35: the flag says that there is no borrow, and the difference of bytes is modulo 256. -/
theorem subRegSetsNoBorrow : Obligations.SubRegSetsNoBorrow := by
  intro x y s
  have hword : BitVec.ofNat 16 (0x8005 + x.val * 256 + y.val * 16) = formatXYN 0x8#4 x y 0x5#4 :=
    ofNat_eq_formatXYN_group8 x y 0x5#4
  rw [hword]
  refine ⟨decodesTo_subReg x y, _, exec_subReg x y s, fun h => ?_, fun hx => ?_, changesOnlyRegAndVf_flagAndResult _ _ _ x y s⟩
  · have := (s.getV y).isLt
    rw [flagAndResult_getV_plain_result _ _ _ x y s h, toNat_byte_sub]
    omega
  · rw [flagAndResult_getV_flag _ _ _ s hx, toNat_subFlag]

/-- Settles O36: as `SUB` with the operands reversed, and the flag is strict. -/
theorem subnRegSetsStrictlyGreater : Obligations.SubnRegSetsStrictlyGreater := by
  intro x y s
  have hword : BitVec.ofNat 16 (0x8007 + x.val * 256 + y.val * 16) = formatXYN 0x8#4 x y 0x7#4 :=
    ofNat_eq_formatXYN_group8 x y 0x7#4
  rw [hword]
  refine ⟨decodesTo_subnReg x y, _, exec_subnReg x y s, fun h => ?_, fun hx => ?_,
    changesOnlyRegAndVf_flagAndResult _ _ _ x y s⟩
  · have := (s.getV x).isLt
    rw [flagAndResult_getV_plain_result _ _ _ x y s h, toNat_byte_sub]
    omega
  · rw [flagAndResult_getV_flag _ _ _ s hx, toNat_subnFlag]

/-- Settles O38: a shift is a division or a product by 2, and the flag what it drops. -/
theorem shiftsSetTheBitShiftedOut : Obligations.ShiftsSetTheBitShiftedOut := by
  intro x y s
  have hshr : BitVec.ofNat 16 (0x8006 + x.val * 256 + y.val * 16) = formatXYN 0x8#4 x y 0x6#4 :=
    ofNat_eq_formatXYN_group8 x y 0x6#4
  have hshl : BitVec.ofNat 16 (0x800E + x.val * 256 + y.val * 16) = formatXYN 0x8#4 x y 0xE#4 :=
    ofNat_eq_formatXYN_group8 x y 0xE#4
  rw [hshr, hshl]
  refine ⟨decodesTo_shr x y, decodesTo_shl x y,
    ⟨_, exec_shr x s, fun h => ?_, fun hx => ?_, changesOnlyRegAndVf_flagAndResult _ _ _ x x s⟩,
    ⟨_, exec_shl x s, fun h => ?_, fun hx => ?_, changesOnlyRegAndVf_flagAndResult _ _ _ x x s⟩⟩
  · rw [flagAndResult_getV_plain_result _ _ _ x x s (h.imp_left fun hx => ⟨hx, hx⟩), toNat_shiftRight_one]
  · rw [flagAndResult_getV_flag _ _ _ s hx, toNat_shrFlag]
  · rw [flagAndResult_getV_plain_result _ _ _ x x s (h.imp_left fun hx => ⟨hx, hx⟩), toNat_shiftLeft_one]
  · rw [flagAndResult_getV_flag _ _ _ s hx, toNat_shlFlag]

/-! ### The register rows of U3 (93_implementation_defined.md) -/

section
variable (ord : Config.VfOrder) (flag result : Byte → Byte → Byte) (x y : Reg) (s : State)

/-- VF as the destination ends, in the column of the order: as the result, as the flag, or as the result of the operands
read again after the flag write. -/
theorem flagAndResult_destination_vf :
    ((flagAndResult ord flag result 15 y s).getV 15).toNat =
      rowU3 ord (result (s.getV 15) (s.getV y)).toNat (flag (s.getV 15) (s.getV y)).toNat
        (result (flag (s.getV 15) (s.getV y))
          (if y = 15 then flag (s.getV 15) (s.getV y) else s.getV y)).toNat := by
  rw [flagAndResult_getV_destination]
  cases ord <;> rfl

/-- VF as the other operand is the flag in the orders that read it again after the flag write. -/
theorem flagAndResult_operand_vf (hx : x ≠ 15) :
    ((flagAndResult ord flag result x 15 s).getV x).toNat =
      rowU3 ord (result (s.getV x) (s.getV 15)).toNat (result (s.getV x) (s.getV 15)).toNat
        (result (s.getV x) (flag (s.getV x) (s.getV 15))).toNat := by
  rw [flagAndResult_getV_destination, if_neg hx, if_neg hx, if_pos rfl]
  cases ord <;> rfl

/-- The rows of `ADD` are rows of the order that its sum follows. -/
theorem sumRowU3_eq (a b c : Nat) : sumRowU3 ord a b c = rowU3 (sumOrder ord) a b c := by
  cases ord <;> rfl

end

end Sys2Proof.Machine

/-! ## Noninterference (10_state.md R17, R22, R23; 45_random.md R161; 93_implementation_defined.md U3)

Six fields are read by few instructions or by none. One lemma says what a change of any of them does to an execution, and
one what it does to a cycle; the statement about each field is a case of it. -/

namespace Sys2Proof.Machine

/-- The sound timer, the keypad, the screen, the random input and VF_ORDER. -/
structure Periphery where
  st : Byte
  key : Keypad
  screen : Screen
  rndIn : List Byte
  rndDraws : Nat
  vfOrder : Config.VfOrder

def State.periphery (s : State) : Periphery := ⟨s.st, s.key, s.screen, s.rndIn, s.rndDraws, s.params.vfOrder⟩

/-- The state with another periphery. -/
def State.withPeriphery (s : State) (p : Periphery) : State :=
  { s with st := p.st, key := p.key, screen := p.screen, rndIn := p.rndIn, rndDraws := p.rndDraws,
           params := { s.params with vfOrder := p.vfOrder } }

/-- The periphery `p` holds what the state `s` holds wherever the instruction `i` reads it. -/
structure ReadsAlike (i : Instr) (s : State) (p : Periphery) : Prop where
  key : (∃ x, i = .skp x ∨ i = .sknp x ∨ i = .ldVxK x) → p.key = s.key
  screen : (∃ x y n, i = .drw x y n) → p.screen = s.screen
  random : (∃ x kk, i = .rnd x kk) → p.rndIn = s.rndIn ∧ p.rndDraws = s.rndDraws
  vfOrder : namesVf i = true → p.vfOrder = s.params.vfOrder

/-- Field by field, a periphery `p` that is the one of `s` has become a periphery `q` that is the one of `t`. -/
structure StaysAlike (s t : State) (p q : Periphery) : Prop where
  st : p.st = s.st → q.st = t.st
  key : p.key = s.key → q.key = t.key
  screen : p.screen = s.screen → q.screen = t.screen
  random : p.rndIn = s.rndIn → p.rndDraws = s.rndDraws → q.rndIn = t.rndIn ∧ q.rndDraws = t.rndDraws
  vfOrder : p.vfOrder = s.params.vfOrder → q.vfOrder = t.params.vfOrder

/-- What keeps the periphery of the state keeps `p` as alike as it was. -/
theorem StaysAlike.of_periphery {s t : State} {p : Periphery} (h : t.periphery = s.periphery) : StaysAlike s t p p := by
  simp only [State.periphery, Periphery.mk.injEq] at h
  obtain ⟨hst, hkey, hscreen, hin, hdraws, horder⟩ := h
  constructor <;> simp_all

/-- The fault check reads no periphery. -/
@[simp] theorem executeFault_withPeriphery (i : Instr) (s : State) (p : Periphery) :
    executeFault i (s.withPeriphery p) = executeFault i s := by
  cases i <;> rfl

theorem skipIf_withPeriphery (c : Bool) (s : State) (p : Periphery) :
    skipIf c (s.withPeriphery p) = (skipIf c s).withPeriphery p := by
  cases c <;> rfl

theorem periphery_skipIf (c : Bool) (s : State) : (skipIf c s).periphery = s.periphery := by
  cases c <;> rfl

/-! ### The flag and result writes where no VF is named -/

/-- Away from VF the order of the two writes plays no part. -/
theorem flagAndResult_order_irrelevant {x y : Reg} (hx : x ≠ 15) (hy : y ≠ 15) (ord ord' : Config.VfOrder)
    (flag result : Byte → Byte → Byte) (s : State) :
    flagAndResult ord flag result x y s = flagAndResult ord' flag result x y s := by
  refine State.ext_of_getV (fun r => ?_) ?_
  · by_cases hrx : r = x
    · subst hrx
      rw [flagAndResult_getV_result _ _ _ s hx hy, flagAndResult_getV_result _ _ _ s hx hy]
    · by_cases hr : r = 15
      · subst hr
        rw [flagAndResult_getV_flag _ _ _ s hx, flagAndResult_getV_flag _ _ _ s hx]
      · rw [flagAndResult_getV_of_ne _ _ _ s hrx hr, flagAndResult_getV_of_ne _ _ _ s hrx hr]
  · rw [flagAndResult_only_v ord, flagAndResult_only_v ord']

/-- Whatever the two orders are where no VF is named, and in one order, the writes leave the periphery. -/
theorem flagAndResult_withPeriphery {ord ord' : Config.VfOrder} {x y : Reg} (h : x = 15 ∨ y = 15 → ord' = ord)
    (flag result : Byte → Byte → Byte) (s : State) (p : Periphery) :
    flagAndResult ord' flag result x y (s.withPeriphery p) = (flagAndResult ord flag result x y s).withPeriphery p := by
  have hsame : flagAndResult ord' flag result x y s = flagAndResult ord flag result x y s := by
    by_cases hxy : x = 15 ∨ y = 15
    · rw [h hxy]
    · obtain ⟨hx, hy⟩ := not_or.mp hxy
      exact flagAndResult_order_irrelevant hx hy ord' ord flag result s
  rw [← hsame]
  cases ord' <;> rfl

theorem periphery_flagAndResult (ord : Config.VfOrder) (flag result : Byte → Byte → Byte) (x y : Reg) (s : State) :
    (flagAndResult ord flag result x y s).periphery = s.periphery := by
  cases ord <;> rfl

theorem drwCoordinate_withPeriphery {r : Reg} {s : State} {p : Periphery}
    (h : r = 15 → p.vfOrder = s.params.vfOrder) : drwCoordinate (s.withPeriphery p) r = drwCoordinate s r := by
  unfold drwCoordinate
  split
  · next hr => rw [← h hr]; rfl
  · rfl

theorem drawn_withPeriphery {x y : Reg} {n : Nat} {s : State} {p : Periphery} (h : ReadsAlike (.drw x y n) s p) :
    drawn x y n (s.withPeriphery p) = drawn x y n s := by
  have hx : x = 15 → p.vfOrder = s.params.vfOrder := fun hx => h.vfOrder (by simp [namesVf, hx])
  have hy : y = 15 → p.vfOrder = s.params.vfOrder := fun hy => h.vfOrder (by simp [namesVf, hy])
  have hscreen : p.screen = s.screen := h.screen ⟨x, y, n, rfl⟩
  rw [drawn, drawn, drwCoordinate_withPeriphery hx, drwCoordinate_withPeriphery hy, ← hscreen]
  rfl

theorem loadRun_withPeriphery (s : State) (p : Periphery) (k : Nat) (bs : List Byte) :
    loadRun (s.withPeriphery p) k bs = (loadRun s k bs).withPeriphery p := by
  induction bs generalizing s k with
  | nil => rfl
  | cons b bs ih => exact ih { s with v := s.v.setIfInBounds k b } (k + 1)

section
variable {s : State} {p : Periphery} (hin : p.rndIn = s.rndIn) (hdraws : p.rndDraws = s.rndDraws)
include hin hdraws

theorem rndByte_withPeriphery : rndByte (s.withPeriphery p) = rndByte s := by
  simp only [rndByte, State.withPeriphery, hin, hdraws]

theorem rndSampled_withPeriphery : rndSampled (s.withPeriphery p) =
    (rndSampled s).withPeriphery { p with rndIn := (rndSampled s).rndIn, rndDraws := (rndSampled s).rndDraws } := by
  unfold rndSampled
  rw [show (s.withPeriphery p).rndIn = s.rndIn from hin]
  split
  · simp only [State.withPeriphery, hdraws]
  · next hnil => simp only [State.withPeriphery, hdraws, hin]

end

/-! ### An execution and a cycle under another periphery -/

/-- An execution under a periphery that is alike wherever the instruction reads it answers the same state under a
periphery that is as alike as before. -/
theorem exec_withPeriphery {i : Instr} {s : State} {p : Periphery} (h : ReadsAlike i s p) :
    ∃ t q, exec i s = .next t ∧ exec i (s.withPeriphery p) = .next (t.withPeriphery q) ∧ StaysAlike s t p q := by
  rcases hc : executeFault i s with _ | c
  case some =>
    exact ⟨_, p, exec_of_executeFault hc, exec_of_executeFault (s := s.withPeriphery p) (by simpa using hc),
      .of_periphery rfl⟩
  cases i
  case cls => exact ⟨_, { p with screen := clearScreen }, rfl, rfl, ⟨id, id, fun _ => rfl, .intro, id⟩⟩
  case ldStVx x => exact ⟨_, { p with st := s.getV x }, rfl, rfl, ⟨fun _ => rfl, id, id, .intro, id⟩⟩
  case seByte | sneByte | seReg | sneReg =>
    exact ⟨_, p, rfl, congrArg _ (skipIf_withPeriphery _ s p), .of_periphery (periphery_skipIf _ s)⟩
  case call nnn =>
    have hroom := executeFault_call_eq_none.mp hc
    exact ⟨_, p, exec_call_of_room nnn hroom, exec_call_of_room (s := s.withPeriphery p) nnn hroom, .of_periphery rfl⟩
  case ret =>
    have hentry := executeFault_ret_eq_none.mp hc
    exact ⟨_, p, exec_ret_of_entry hentry, exec_ret_of_entry (s := s.withPeriphery p) hentry, .of_periphery rfl⟩
  case addReg x y =>
    refine ⟨_, p, rfl, congrArg _ (flagAndResult_withPeriphery (fun hxy => ?_) _ _ s p),
      .of_periphery (periphery_flagAndResult _ _ _ _ _ s)⟩
    exact congrArg sumOrder (h.vfOrder (by simpa [namesVf] using hxy))
  case subReg x y | subnReg x y =>
    refine ⟨_, p, rfl, congrArg _ (flagAndResult_withPeriphery (fun hxy => ?_) _ _ s p),
      .of_periphery (periphery_flagAndResult _ _ _ _ _ s)⟩
    exact h.vfOrder (by simpa [namesVf] using hxy)
  case shr x | shl x =>
    refine ⟨_, p, rfl, congrArg _ (flagAndResult_withPeriphery (fun hxy => ?_) _ _ s p),
      .of_periphery (periphery_flagAndResult _ _ _ _ _ s)⟩
    exact h.vfOrder (by simpa [namesVf] using hxy)
  case skp x =>
    obtain ⟨k, hk⟩ := executeFault_skp_eq_none.mp hc
    refine ⟨_, p, exec_skp_of_key hk, ?_, .of_periphery (periphery_skipIf _ s)⟩
    rw [← skipIf_withPeriphery, ← h.key ⟨x, .inl rfl⟩]
    exact exec_skp_of_key (s := s.withPeriphery p) hk
  case sknp x =>
    obtain ⟨k, hk⟩ := executeFault_sknp_eq_none.mp hc
    refine ⟨_, p, exec_sknp_of_key hk, ?_, .of_periphery (periphery_skipIf _ s)⟩
    rw [← skipIf_withPeriphery, ← h.key ⟨x, .inr (.inl rfl)⟩]
    exact exec_sknp_of_key (s := s.withPeriphery p) hk
  case ldVxK x =>
    have hkey : (s.withPeriphery p).key = s.key := h.key ⟨x, .inr (.inr rfl)⟩
    refine ⟨_, p, exec_ldVxK x s, ?_, .of_periphery ?_⟩
    · rw [exec_ldVxK, hkey]
      cases firstKey s.key <;> rfl
    · cases firstKey s.key <;> rfl
  case rnd x kk =>
    obtain ⟨hin, hdraws⟩ := h.random ⟨x, kk, rfl⟩
    refine ⟨_, { p with rndIn := (rndSampled s).rndIn, rndDraws := (rndSampled s).rndDraws }, rfl, ?_, ?_⟩
    · show Host.Outcome.next ((rndSampled (s.withPeriphery p)).setV x (rndByte (s.withPeriphery p) &&& kk)) = _
      rw [rndByte_withPeriphery hin hdraws, rndSampled_withPeriphery hin hdraws]
      rfl
    · rw [rndSampled_only_input]
      exact ⟨id, id, id, fun _ _ => ⟨rfl, rfl⟩, id⟩
  case drw x y n =>
    have hrange := executeFault_drw_eq_none.mp hc
    refine ⟨_, { p with screen := (drawn x y n s).1 }, exec_drw_of_inRange x y hrange, ?_, 
      ⟨id, id, fun _ => rfl, .intro, id⟩⟩
    rw [exec_drw_of_inRange (s := s.withPeriphery p) x y hrange, drawn_withPeriphery h]
    rfl
  case ldB x =>
    have hrange := executeFault_ldB_eq_none.mp hc
    exact ⟨_, p, exec_ldB_of_inRange x hrange, exec_ldB_of_inRange (s := s.withPeriphery p) x hrange, .of_periphery rfl⟩
  case storeRegs x =>
    have hrange := executeFault_storeRegs_eq_none.mp hc
    exact ⟨_, p, exec_storeRegs_of_inRange hrange, exec_storeRegs_of_inRange (s := s.withPeriphery p) hrange,
      .of_periphery rfl⟩
  case loadRegs x =>
    have hrange := executeFault_loadRegs_eq_none.mp hc
    refine ⟨_, p, exec_loadRegs_of_inRange hrange, ?_, .of_periphery ?_⟩
    · rw [exec_loadRegs_of_inRange (s := s.withPeriphery p) hrange, ← loadRun_withPeriphery]
      rfl
    · rw [loadRun_only_v]
      rfl
  all_goals exact ⟨_, p, rfl, rfl, .of_periphery rfl⟩

theorem dueFault_withPeriphery (s : State) (p : Periphery) : dueFault (s.withPeriphery p) = dueFault s := rfl

/-- A running core takes the fault that is due. -/
theorem step_of_dueFault {s : State} {c : Cause} {w : Word} (hrun : s.status = .run) (hdue : dueFault s = some (c, w)) :
    step s = .next (takeFault c s.pc w (closeLoad s)) :=
  (cycleFaultsExactlyWhenDue s hrun).1 c w hdue

/-- A cycle under a periphery that is alike wherever the fetched instruction reads it answers the same state under a
periphery that is as alike as before. -/
theorem step_withPeriphery {s : State} {p : Periphery} (h : ∀ i, fetches s i → ReadsAlike i s p) :
    ∃ t q, step s = .next t ∧ step (s.withPeriphery p) = .next (t.withPeriphery q) ∧ StaysAlike s t p q := by
  rcases hstatus : s.status with _ | _
  case halted =>
    exact ⟨s, p, step_of_halted hstatus, step_of_halted (s := s.withPeriphery p) hstatus, .of_periphery rfl⟩
  obtain ⟨c, w, hdue, hstep⟩ | ⟨-, i, hf, hc⟩ := step_run_cases hstatus
  · exact ⟨_, p, hstep, step_of_dueFault (s := s.withPeriphery p) hstatus ((dueFault_withPeriphery s p).trans hdue),
      .of_periphery rfl⟩
  · have hread : ReadsAlike i (advance s) p := ⟨(h i hf).key, (h i hf).screen, (h i hf).random, (h i hf).vfOrder⟩
    obtain ⟨t, q, ht, ht', halike⟩ := exec_withPeriphery hread
    have hf' : fetches (s.withPeriphery p) i := hf
    refine ⟨tick t, { q with st := tickTimer q.st }, step_of_no_executeFault hf hc ht,
      step_of_no_executeFault hf' (by simpa using hc) ht', ?_⟩
    exact ⟨fun hst => congrArg tickTimer (halike.st hst), halike.key, halike.screen, halike.random, halike.vfOrder⟩

/-! ### The sound timer -/

/-- Settles O19: no instruction reads the sound timer, so the cycles differ in it alone. -/
theorem soundTimerIsNeverRead : Obligations.SoundTimerIsNeverRead := by
  intro s b
  have hread : ∀ i, fetches s i → ReadsAlike i s { s.periphery with st := b } :=
    fun _ _ => ⟨fun _ => rfl, fun _ => rfl, fun _ => ⟨rfl, rfl⟩, fun _ => rfl⟩
  obtain ⟨t, q, ht, ht', halike⟩ := step_withPeriphery hread
  refine ⟨t, t.withPeriphery q, ht, ht', ?_⟩
  obtain ⟨hin, hdraws⟩ := halike.random rfl rfl
  simp only [State.withPeriphery, halike.key rfl, halike.screen rfl, hin, hdraws, halike.vfOrder rfl]

end Sys2Proof.Machine

/-! ## Noninterference: the screen, the random input, the keypad, VF_ORDER -/

namespace Sys2Proof.Machine

/-! ### The screen (R23) -/

/-- Two cycles that execute one `DRW` on different screens differ in the screen and in VF alone. -/
theorem step_drw_screen {x y : Reg} {n : Nat} {s : State} (hf : fetches s (.drw x y n)) (sc : Screen) :
    ∃ t t', step s = .next t ∧ step { s with screen := sc } = .next t' ∧
      t' = { t with screen := t'.screen, v := t'.v } ∧ ∀ r, r ≠ 15 → t'.getV r = t.getV r := by
  have hf' : fetches { s with screen := sc } (.drw x y n) := hf
  rcases hc : executeFault (.drw x y n) s with _ | c
  · have hrange := executeFault_drw_eq_none.mp hc
    refine ⟨_, _, step_of_no_executeFault hf hc (exec_drw_of_inRange x y hrange),
      step_of_no_executeFault hf' hc (exec_drw_of_inRange x y hrange), rfl, fun r hr => ?_⟩
    rw [getV_tick, getV_tick, getV_setV_of_ne _ _ hr.symm, getV_setV_of_ne _ _ hr.symm]
    rfl
  · exact ⟨_, _, step_of_executeFault hf hc, step_of_executeFault hf' hc, rfl, fun _ _ => rfl⟩

/-- Settles O20: `DRW` alone reads the screen, and writes what it read to the screen and VF alone. -/
theorem screenReachesOnlyTheCollisionFlag : Obligations.ScreenReachesOnlyTheCollisionFlag := by
  intro s sc
  by_cases hdrw : ∃ x y n, fetches s (.drw x y n)
  · obtain ⟨x, y, n, hf⟩ := hdrw
    obtain ⟨t, t', ht, ht', hframe, hreg⟩ := step_drw_screen hf sc
    exact ⟨t, t', ht, ht', hframe, hreg, fun hno => absurd hf (hno x y n)⟩
  · have hread : ∀ i, fetches s i → ReadsAlike i s { s.periphery with screen := sc } := fun i hf =>
      ⟨fun _ => rfl, fun ⟨x, y, n, hi⟩ => absurd ⟨x, y, n, hi ▸ hf⟩ hdrw, fun _ => ⟨rfl, rfl⟩, fun _ => rfl⟩
    obtain ⟨t, q, ht, ht', halike⟩ := step_withPeriphery hread
    refine ⟨t, t.withPeriphery q, ht, ht', ?_, fun _ _ => rfl, fun _ => rfl⟩
    obtain ⟨hin, hdraws⟩ := halike.random rfl rfl
    simp only [State.withPeriphery, halike.st rfl, halike.key rfl, hin, hdraws, halike.vfOrder rfl]

/-! ### The random input (R161) -/

/-- The cycle of `RND` uses up the presented byte and ticks. -/
theorem step_rnd {x : Reg} {kk : Byte} {s : State} (hf : fetches s (.rnd x kk)) :
    step s = .next (tick ((rndSampled (advance s)).setV x (rndByte s &&& kk))) :=
  step_of_no_executeFault hf rfl rfl

/-- A cycle that executes no `RND` leaves the random input. -/
theorem step_randomInput {s t : State} (hno : ∀ x kk, ¬ fetches s (.rnd x kk)) (ht : step s = .next t) :
    t.rndIn = s.rndIn ∧ t.rndDraws = s.rndDraws := by
  rcases hstatus : s.status with _ | _
  case halted =>
    cases (step_of_halted hstatus).symm.trans ht
    exact ⟨rfl, rfl⟩
  obtain ⟨c, w, -, hstep⟩ | ⟨-, i, hf, hc⟩ := step_run_cases hstatus
  · cases hstep.symm.trans ht
    exact ⟨rfl, rfl⟩
  · obtain ⟨u, hu, hframe⟩ := exec_frame (i := i) (s := advance s) (by rw [executeFault_advance, hc])
    cases (step_of_no_executeFault hf hc hu).symm.trans ht
    refine hframe.randomInput ?_
    cases i
    case rnd x kk => exact absurd hf (hno x kk)
    all_goals simp [instrWrites]

/-- A cycle that executes no `RND` goes the same way whatever the random input is. -/
theorem step_with_random {s : State} (hno : ∀ x kk, ¬ fetches s (.rnd x kk)) (bs : List Byte) (k : Nat) :
    ∃ t, step s = .next t ∧ t.rndIn = s.rndIn ∧ t.rndDraws = s.rndDraws ∧
      step { s with rndIn := bs, rndDraws := k } = .next { t with rndIn := bs, rndDraws := k } := by
  have hread : ∀ i, fetches s i → ReadsAlike i s { s.periphery with rndIn := bs, rndDraws := k } := fun i hf =>
    ⟨fun _ => rfl, fun _ => rfl, fun ⟨x, kk, hi⟩ => absurd (hi ▸ hf) (hno x kk), fun _ => rfl⟩
  obtain ⟨t, q, ht, ht', halike⟩ := step_withPeriphery hread
  obtain ⟨hin, hdraws⟩ := step_randomInput hno ht
  obtain ⟨hqin, hqdraws⟩ : q.rndIn = bs ∧ q.rndDraws = k :=
    step_randomInput (s := s.withPeriphery { s.periphery with rndIn := bs, rndDraws := k }) hno ht'
  refine ⟨t, ht, hin, hdraws, ht'.trans ?_⟩
  simp only [State.withPeriphery, halike.st rfl, halike.key rfl, halike.screen rfl, hqin, hqdraws, halike.vfOrder rfl]

/-- Settles O21: `RND` alone samples the input, and puts what it sampled into its destination alone. -/
theorem randomInputReachesOnlyTheRndDestination : Obligations.RandomInputReachesOnlyTheRndDestination := by
  intro s bs k
  by_cases hrnd : ∃ x kk, fetches s (.rnd x kk)
  · obtain ⟨x, kk, hf⟩ := hrnd
    have hf' : fetches { s with rndIn := bs, rndDraws := k } (.rnd x kk) := hf
    refine ⟨_, _, step_rnd hf, step_rnd hf', ?_, fun r hno => ?_, fun hno => absurd hf (hno x kk)⟩
    · rw [rndSampled_only_input (advance s), rndSampled_only_input (advance { s with rndIn := bs, rndDraws := k })]
      rfl
    · have hr : x ≠ r := fun hxr => hno kk (hxr ▸ hf)
      rw [getV_tick, getV_tick, getV_setV_of_ne _ _ hr, getV_setV_of_ne _ _ hr, getV_rndSampled, getV_rndSampled]
      rfl
  · have hno : ∀ x kk, ¬ fetches s (.rnd x kk) := fun x kk hf => hrnd ⟨x, kk, hf⟩
    obtain ⟨t, ht, -, -, ht'⟩ := step_with_random hno bs k
    exact ⟨t, _, ht, ht', rfl, fun _ _ => rfl, fun _ => ⟨rfl, rfl⟩⟩

/-- Settles O56: the byte stands on the input for the one cycle, which uses it up in `RND` and goes the same way without
it in any other. -/
theorem hostCycleOffersItsByte : Obligations.HostCycleOffersItsByte := by
  intro b s
  by_cases hrnd : ∃ x kk, fetches s (.rnd x kk)
  · obtain ⟨x, kk, hf⟩ := hrnd
    have hf' : fetches { s with rndIn := [b] } (.rnd x kk) := hf
    refine ⟨_, hostCycle_of_step (step_rnd hf'), rfl, rfl, fun hhalted => ?_, fun x' kk' hf'' => ?_,
      fun hno => absurd hf (hno x kk)⟩
    · cases hf.1.symm.trans hhalted
    · cases hf.2.2.symm.trans hf''.2.2
      exact ⟨getV_setV_self _ x _, fun r hr => getV_setV_of_ne _ _ hr.symm⟩
  · have hno : ∀ x kk, ¬ fetches s (.rnd x kk) := fun x kk hf => hrnd ⟨x, kk, hf⟩
    obtain ⟨t, ht, hin, hdraws, ht'⟩ := step_with_random hno [b] s.rndDraws
    have hcycle : hostStep (.cycle b) s = .next t := by
      rw [hostCycle_of_step ht', ← hin, ← hdraws]
    refine ⟨t, hcycle, hin, hdraws, fun hhalted => ?_, fun x kk hf => absurd hf (hno x kk), fun _ => ⟨t, ht, rfl⟩⟩
    cases ht.symm.trans (step_of_halted hhalted)
    rfl

/-! ### The keypad (R22) -/

/-- No cycle writes the keypad. -/
theorem step_key {s t : State} (ht : step s = .next t) : t.key = s.key := by
  rcases hstatus : s.status with _ | _
  case halted =>
    cases (step_of_halted hstatus).symm.trans ht
    rfl
  have ⟨hfault, hrun⟩ := cycleFaultsExactlyWhenDue s hstatus
  rcases hdue : dueFault s with _ | ⟨c, w⟩
  · obtain ⟨u, hu, -, -, -, -, hkey, -⟩ := hrun hdue
    cases hu.symm.trans ht
    exact hkey
  · cases (hfault c w hdue).symm.trans ht
    rfl

/-- Settles O22: the three key instructions alone read the keypad, and no cycle writes it. -/
theorem keypadReadOnlyByKeyInstructions : Obligations.KeypadReadOnlyByKeyInstructions := by
  intro s k
  by_cases hno : ∀ x, ¬ fetches s (.skp x) ∧ ¬ fetches s (.sknp x) ∧ ¬ fetches s (.ldVxK x)
  · have hread : ∀ i, fetches s i → ReadsAlike i s { s.periphery with key := k } := by
      refine fun i hf => ⟨?_, fun _ => rfl, fun _ => ⟨rfl, rfl⟩, fun _ => rfl⟩
      rintro ⟨x, rfl | rfl | rfl⟩
      · exact absurd hf (hno x).1
      · exact absurd hf (hno x).2.1
      · exact absurd hf (hno x).2.2
    obtain ⟨t, q, ht, ht', halike⟩ := step_withPeriphery hread
    have hkey : q.key = k := step_key ht'
    refine ⟨t, t.withPeriphery q, ht, ht', step_key ht, hkey, fun _ => ?_⟩
    obtain ⟨hin, hdraws⟩ := halike.random rfl rfl
    simp only [State.withPeriphery, halike.st rfl, hkey, halike.screen rfl, hin, hdraws, halike.vfOrder rfl]
  · obtain ⟨t, ht⟩ := step_answers_next s
    obtain ⟨t', ht'⟩ := step_answers_next { s with key := k }
    exact ⟨t, t', ht, ht', step_key ht, step_key ht', fun h => absurd h hno⟩

/-! ### VF_ORDER (R33, U3) -/

/-- No execution writes the configuration. -/
theorem exec_params {i : Instr} {s t : State} (ht : exec i s = .next t) : t.params = s.params := by
  obtain ⟨c, -, h⟩ | ⟨-, u, h, -, -, -, -, -, -, hparams⟩ := exec_cases i s
  · cases h.symm.trans ht
    rfl
  · cases h.symm.trans ht
    exact hparams

/-- An instruction that does not both write the flag and name VF does the same in every order. -/
theorem exec_withVfOrder (o : Config.VfOrder) {i : Instr} (s : State) (h : namesVf i = false) :
    ∃ t, exec i s = .next t ∧ exec i (s.withVfOrder o) = .next (t.withVfOrder o) := by
  have hread : ReadsAlike i s { s.periphery with vfOrder := o } :=
    ⟨fun _ => rfl, fun _ => rfl, fun _ => ⟨rfl, rfl⟩, fun hnames => by simp [h] at hnames⟩
  obtain ⟨t, q, ht, ht', halike⟩ := exec_withPeriphery hread
  have horder : q.vfOrder = o := congrArg Config.Params.vfOrder (exec_params ht')
  obtain ⟨hin, hdraws⟩ := halike.random rfl rfl
  refine ⟨t, ht, ht'.trans ?_⟩
  simp only [State.withPeriphery, State.withVfOrder, halike.st rfl, halike.key rfl, halike.screen rfl, hin, hdraws, horder]

/-- Settles O39: away from VF the two writes commute, and at VF the three kinds of order give the three columns of U3. -/
theorem vfOrdersDifferOnlyAtVf : Obligations.VfOrdersDifferOnlyAtVf := by
  refine ⟨fun o i s h => exec_withVfOrder o s h, ?_, ?_⟩
  · rintro y s f v rfl rfl
    refine ⟨fun c hc => ⟨_, exec_addReg 15 y s, ?_⟩, fun c hc => ⟨_, exec_subReg 15 y s, ?_⟩,
      fun c hc => ⟨_, exec_subnReg 15 y s, ?_⟩, ⟨_, exec_shr 15 s, ?_⟩, ⟨_, exec_shl 15 s, ?_⟩⟩
    · rw [← toNat_addFlag] at hc
      rw [flagAndResult_destination_vf, sumRowU3_eq, toNat_byte_add, toNat_byte_add, apply_ite BitVec.toNat, hc]
    · rw [← toNat_subFlag] at hc
      rw [flagAndResult_destination_vf, toNat_byte_sub, toNat_byte_sub, apply_ite BitVec.toNat, hc]
    · rw [← toNat_subnFlag] at hc
      rw [flagAndResult_destination_vf, toNat_byte_sub, toNat_byte_sub, apply_ite BitVec.toNat, hc]
    · rw [flagAndResult_destination_vf, toNat_shiftRight_one, toNat_shiftRight_one, toNat_shrFlag,
        show (s.getV 15).toNat % 2 / 2 = 0 by omega]
    · have := (s.getV 15).isLt
      rw [flagAndResult_destination_vf, toNat_shiftLeft_one, toNat_shiftLeft_one, toNat_shlFlag,
        show (s.getV 15).toNat / 128 * 2 % 256 = (s.getV 15).toNat / 128 * 2 by omega]
  · rintro x s f v hx rfl rfl
    refine ⟨fun c hc => ⟨_, exec_subReg x 15 s, ?_, ?_⟩, fun c hc => ⟨_, exec_subnReg x 15 s, ?_, ?_⟩,
      fun c hc => ⟨_, exec_addReg x 15 s, ?_, ?_⟩⟩
    · rw [flagAndResult_getV_flag _ _ _ s hx, toNat_subFlag, hc]
    · rw [← toNat_subFlag] at hc
      rw [flagAndResult_operand_vf _ _ _ x s hx, toNat_byte_sub, toNat_byte_sub, hc]
    · rw [flagAndResult_getV_flag _ _ _ s hx, toNat_subnFlag, hc]
    · rw [← toNat_subnFlag] at hc
      rw [flagAndResult_operand_vf _ _ _ x s hx, toNat_byte_sub, toNat_byte_sub, hc]
    · rw [flagAndResult_getV_flag _ _ _ s hx, toNat_addFlag, hc]
    · rw [← toNat_addFlag] at hc
      rw [flagAndResult_operand_vf _ _ _ x s hx, sumRowU3_eq, toNat_byte_add, toNat_byte_add, hc]

end Sys2Proof.Machine

/-! ## Random, BCD and block transfer (45_random.md, 49_font_bcd_block.md) -/

namespace Sys2Proof.Machine

/-! ### `RND Vx,byte` -/

theorem exec_rnd (x : Reg) (kk : Byte) (s : State) :
    exec (.rnd x kk) s = .next ((rndSampled s).setV x (rndByte s &&& kk)) := rfl

theorem rndByte_of_cons {s : State} {b : Byte} {bs : List Byte} (h : s.rndIn = b :: bs) : rndByte s = b := by
  rw [rndByte, h]

theorem rndSampled_of_cons {s : State} {b : Byte} {bs : List Byte} (h : s.rndIn = b :: bs) :
    rndSampled s = { s with rndIn := bs } := by
  rw [rndSampled, h]

theorem rndByte_of_nil {s : State} (h : s.rndIn = []) : rndByte s = Config.rndByte s.rndDraws := by
  rw [rndByte, h]

theorem rndSampled_of_nil {s : State} (h : s.rndIn = []) : rndSampled s = { s with rndDraws := s.rndDraws + 1 } := by
  rw [rndSampled, h]

/-- Settles O42: the destination takes the mask of the sampled byte, the host's or the free one. -/
theorem rndMasksThePresentedByte : Obligations.RndMasksThePresentedByte := by
  intro x kk s
  have hword : BitVec.ofNat 16 (0xC000 + x.val * 256 + kk.toNat) = formatXK 0xC#4 x kk := ofNat_eq_formatXK 0xC#4 x kk
  rw [hword]
  refine ⟨decodesTo_rnd x kk, fun b bs hcons => ⟨_, exec_rnd x kk s, fun j => ?_, fun r hr => ?_, ?_, fun _ => ?_⟩,
    fun hnil => ⟨_, exec_rnd x kk s, fun j => ?_, fun r hr => ?_, ?_, fun _ => ?_⟩⟩
  · rw [getV_setV_self, BitVec.getLsbD_and, rndByte_of_cons hcons]
  · rw [getV_setV_of_ne _ _ hr.symm, getV_rndSampled]
  · rw [rndSampled_of_cons hcons]
    rfl
  · rw [rndSampled_of_cons hcons]
    rfl
  · rw [getV_setV_self, BitVec.getLsbD_and, rndByte_of_nil hnil]
  · rw [getV_setV_of_ne _ _ hr.symm, getV_rndSampled]
  · rw [rndSampled_of_nil hnil]
    rfl
  · rw [rndSampled_of_nil hnil]
    rfl

/-! ### What the three block instructions leave in memory and in the registers -/

/-- A block write changes the bytes of its range alone. -/
theorem changesOnlyMemory_writeBytes {s : State} {a n : Nat} {bs : List Byte} (hn : bs.length = n) :
    changesOnlyMemory a n s { s with mem := s.mem.writeBytes a bs } :=
  ⟨rfl, fun b hb => by rw [Memory.read_writeBytes, hn, if_neg hb]⟩

/-- Byte `k` of the stored run is V[k]. -/
theorem read_writeBytes_regRun (s : State) {x k : Reg} (hk : k ≤ x) :
    (s.mem.writeBytes s.i.toNat (regRun s x)).read (s.i.toNat + k.val) = s.getV k := by
  have : k.val ≤ x.val := hk
  rw [Memory.read_writeBytes, length_regRun, if_pos (by omega), Nat.add_sub_cancel_left, getD_regRun s x k hk]

/-- The digit of index `k` stands at I + k. -/
theorem read_writeBytes_bcdDigits (m : Memory) (a : Nat) (b : Byte) {k : Nat} (hk : k < 3) :
    (m.writeBytes a (bcdDigits b)).read (a + k) = (bcdDigits b).getD k 0 := by
  rw [Memory.read_writeBytes, length_bcdDigits, if_pos (by omega), Nat.add_sub_cancel_left]

theorem toNat_digit {d : Nat} (h : d < 256) : (BitVec.ofNat 8 d).toNat = d := by
  rw [BitVec.toNat_ofNat]
  exact Nat.mod_eq_of_lt h

/-- Settles O50: the block of the three digits is written at I, or the check of the range fails. -/
theorem bcdStoresThreeDigits : Obligations.BcdStoresThreeDigits := by
  intro x s
  have hword : BitVec.ofNat 16 (0xF033 + x.val * 256) = formatXK 0xF#4 x 0x33#8 := ofNat_eq_formatXK_groupF x 0x33#8
  have hbyte := (s.getV x).isLt
  rw [hword]
  refine ⟨decodesTo_ldB x, fun hi => ⟨_, exec_ldB_of_inRange x hi, ?_, ?_, ?_,
    changesOnlyMemory_writeBytes (length_bcdDigits _)⟩, fun hi => exec_faultsWith (if_pos hi)⟩
  · exact (congrArg BitVec.toNat (read_writeBytes_bcdDigits _ _ _ (k := 0) (by omega))).trans (toNat_digit (by omega))
  · exact (congrArg BitVec.toNat (read_writeBytes_bcdDigits _ _ _ (k := 1) (by omega))).trans (toNat_digit (by omega))
  · exact (congrArg BitVec.toNat (read_writeBytes_bcdDigits _ _ _ (k := 2) (by omega))).trans (toNat_digit (by omega))

/-- Settles O51: the block of the registers is written at I, or the check of the range fails. -/
theorem storeRegsStoresTheRun : Obligations.StoreRegsStoresTheRun := by
  intro x s
  have hword : BitVec.ofNat 16 (0xF055 + x.val * 256) = formatXK 0xF#4 x 0x55#8 := ofNat_eq_formatXK_groupF x 0x55#8
  rw [hword]
  exact ⟨decodesTo_storeRegs x, fun hi => ⟨_, exec_storeRegs_of_inRange hi, fun k hk => read_writeBytes_regRun s hk,
    changesOnlyMemory_writeBytes (length_regRun s x)⟩, fun hi => exec_faultsWith (if_pos hi)⟩

/-- The registers after a load of the run: the bytes from I on up to `x`, and above it as before. -/
theorem loadRun_bytes_getV (s : State) (x k : Reg) :
    (loadRun s 0 (s.mem.bytes s.i.toNat (x.val + 1))).getV k =
      if k ≤ x then s.mem.read (s.i.toNat + k.val) else s.getV k := by
  rw [loadRun_getV, Memory.length_bytes, Nat.sub_zero]
  by_cases hk : k ≤ x
  · have : k.val ≤ x.val := hk
    rw [if_pos (by omega), if_pos hk, Memory.getD_bytes _ _ _ _ (by omega)]
  · have : ¬ k.val ≤ x.val := hk
    rw [if_neg (by omega), if_neg hk]

/-- A load of registers leaves every byte of memory. -/
theorem loadRun_mem (s : State) (k : Nat) (bs : List Byte) : (loadRun s k bs).mem = s.mem := by
  rw [loadRun_only_v]

/-- Settles O52: the registers of the run take the bytes from I on, or the check of the range fails. -/
theorem loadRegsLoadsTheRun : Obligations.LoadRegsLoadsTheRun := by
  intro x s
  have hword : BitVec.ofNat 16 (0xF065 + x.val * 256) = formatXK 0xF#4 x 0x65#8 := ofNat_eq_formatXK_groupF x 0x65#8
  rw [hword]
  exact ⟨decodesTo_loadRegs x, fun hi => ⟨_, exec_loadRegs_of_inRange hi, loadRun_bytes_getV s x, loadRun_only_v _ _ _,
    fun _ => by rw [loadRun_mem]⟩, fun hi => exec_faultsWith (if_pos hi)⟩

/-- Settles O53: the bytes that the load reads from I on are the registers that the store wrote there. -/
theorem storeThenLoadRestoresRegisters : Obligations.StoreThenLoadRestoresRegisters := by
  intro x s hi
  refine ⟨_, exec_storeRegs_of_inRange hi, fun u hmem hindex => ⟨_, exec_loadRegs_of_inRange (by rwa [hindex]),
    fun k hk => ?_, fun k hk => ?_, ?_⟩⟩
  · rw [loadRun_bytes_getV, if_pos hk, hmem, hindex]
    exact read_writeBytes_regRun s hk
  · rw [loadRun_bytes_getV, if_neg (Fin.not_le.mpr hk)]
  · rw [loadRun_mem, hmem]

/-! ### A store is seen by the next fetch (20_memory.md R52) -/

/-- In a memory that reads as `byteAt`, every cycle executes the word that `byteAt` makes, or halts on it. -/
theorem cyclesExecute_of_read {m : Memory} {byteAt : Nat → Byte} (h : ∀ a, m.read a = byteAt a) :
    cyclesExecute m byteAt := by
  intro u w hmem hrun hpc hw
  have hnext : nextWord u = w := by rw [hw, nextWord, hmem, h, h]
  refine ⟨fun i hi => ?_, fun e he => ?_⟩
  · have hf : fetches u i := ⟨hrun, hpc, hnext ▸ hi⟩
    exact ⟨hf, cycleExecutes_of_fetches hf⟩
  · rw [← hnext] at he ⊢
    exact step_of_decode_error hrun hpc he

/-- Settles O24: after either store memory reads as the stored bytes in the range of the store, and as before outside. -/
theorem storedWordIsFetched : Obligations.StoredWordIsFetched := by
  intro x s
  refine ⟨fun hi => ⟨_, exec_storeRegs_of_inRange hi, cyclesExecute_of_read fun a => ?_⟩,
    fun hi => ⟨_, exec_ldB_of_inRange x hi, cyclesExecute_of_read fun a => ?_⟩⟩
  · by_cases ha : s.i.toNat ≤ a ∧ a ≤ s.i.toNat + x.val
    · obtain ⟨k, rfl⟩ := Nat.exists_eq_add_of_le ha.1
      have hkx : k ≤ x.val := by omega
      have hval : (Fin.ofNat 16 k).val = k := Nat.mod_eq_of_lt (by omega)
      have hread := read_writeBytes_regRun s (x := x) (k := Fin.ofNat 16 k) (by rw [Fin.le_def, hval]; exact hkx)
      rw [hval] at hread
      rw [if_pos ha, Nat.add_sub_cancel_left]
      exact hread
    · rw [if_neg ha, Memory.read_writeBytes, length_regRun, if_neg (by omega)]
  · by_cases ha : s.i.toNat ≤ a ∧ a < s.i.toNat + 3
    · obtain ⟨k, rfl⟩ := Nat.exists_eq_add_of_le ha.1
      have hk : k < 3 := by omega
      rw [read_writeBytes_bcdDigits _ _ _ hk]
      interval_cases k <;> simp [bcdDigits]
    · rw [Memory.read_writeBytes, length_bcdDigits, if_neg ha, if_neg (by omega), if_neg (by omega), if_neg (by omega)]

end Sys2Proof.Machine

/-! ## Display (46_display.md): `CLS` and `DRW` -/

namespace Sys2Proof.Machine

theorem exec_cls (s : State) : exec .cls s = .next { s with screen := clearScreen } := rfl

/-- Settles O43: the screen alone is written, with cells of 0. -/
theorem clsClearsTheScreen : Obligations.ClsClearsTheScreen := by
  intro s
  refine ⟨decodesTo_cls 0, _, exec_cls s, fun px py => ?_, rfl, fun _ => rfl⟩
  show clearScreen[py][px] = false
  simp [clearScreen]

/-! ### What a drawn sprite leaves -/

theorem Screen.cell_eq (sc : Screen) (px : Fin 64) (py : Fin 32) : sc.cell px.val py.val = sc[py][px] :=
  Screen.cell_of_lt sc px.isLt py.isLt

/-- The sprite that `DRW` takes from memory has a set bit over the cell. -/
def covers (x y : Reg) (n : Nat) (s : State) (px py : Nat) : Bool :=
  spriteBit (drwCoordinate s x) (drwCoordinate s y) ((List.range n).map fun k => s.mem.read (s.i.toNat + k)) px py

/-- A cell inside the buffer is flipped exactly when the sprite covers it (R171, R172). -/
theorem drawn_cell (x y : Reg) (n : Nat) (s : State) (px : Fin 64) (py : Fin 32) :
    (drawn x y n s).1[py][px] = (s.screen[py][px] ^^ covers x y n s px.val py.val) := by
  have hcell := (drawRows_spec (drwCoordinate s x) (drwCoordinate s y) (s.mem.bytes s.i.toNat n) (s.screen, false)).1
    px.val py.val
  have hx : px.val ≤ 63 := Nat.le_of_lt_succ px.isLt
  have hy : py.val ≤ 31 := Nat.le_of_lt_succ py.isLt
  rw [Screen.cell_eq, Screen.cell_eq, decide_eq_true hx, decide_eq_true hy, Bool.and_true, Bool.and_true] at hcell
  exact hcell

/-- The collision is a covered cell that was set; a set cell is inside the buffer. -/
theorem drawn_collision (x y : Reg) (n : Nat) (s : State) :
    (drawn x y n s).2 = true ↔
      ∃ (px : Fin 64) (py : Fin 32), s.screen[py][px] = true ∧ covers x y n s px.val py.val = true := by
  have hflag := (drawRows_spec (drwCoordinate s x) (drwCoordinate s y) (s.mem.bytes s.i.toNat n) (s.screen, false)).2
  refine hflag.trans ⟨?_, fun ⟨px, py, hset, hcover⟩ => .inr ⟨px.val, py.val, hcover, ?_⟩⟩
  · rintro (hfalse | ⟨px, py, hcover, hset⟩)
    · cases hfalse
    · have hin : px ≤ 63 ∧ py ≤ 31 := by
        by_contra hout
        rw [Screen.cell_outside _ hout] at hset
        cases hset
      exact ⟨⟨px, by omega⟩, ⟨py, by omega⟩, (Screen.cell_of_lt _ (by omega) (by omega)).symm.trans hset, hcover⟩
  · exact (Screen.cell_eq s.screen px py).trans hset

/-- Settles O44, cell by cell, from what the drawing loops do to each cell and to the collision. -/
theorem drwFlipsCoveredCells : Obligations.DrwFlipsCoveredCells := by
  intro x y n s hrange
  refine ⟨_, exec_drw_of_inRange x y hrange, drawn_cell x y n s, ?_, fun r hr => getV_setV_of_ne _ _ hr.symm, rfl,
    fun _ => rfl⟩
  rw [getV_setV_self, ← Bool.decide_eq_true (b := (drawn x y n s).2), toNat_flagByte]
  exact if_congr (drawn_collision x y n s) rfl rfl

/-- The state that `DRW` leaves. -/
def afterDrw (x y : Reg) (n : Nat) (s : State) : State :=
  { s with screen := (drawn x y n s).1 }.setV 15 (flagByte (drawn x y n s).2)

/-- The same sprite at the same place covers the same cells after a draw, which wrote the screen and VF alone. -/
theorem covers_afterDrw {x y : Reg} (hx : x ≠ 15) (hy : y ≠ 15) (n : Nat) (s : State) :
    covers x y n (afterDrw x y n s) = covers x y n s := by
  have hcoord : ∀ r, r ≠ 15 → drwCoordinate (afterDrw x y n s) r = drwCoordinate s r := by
    intro r hr
    rw [drwCoordinate, drwCoordinate, if_neg hr, if_neg hr, afterDrw, getV_setV_of_ne _ _ hr.symm]
    rfl
  funext px py
  rw [covers, covers, hcoord x hx, hcoord y hy]
  rfl

/-- The second draw flips the cells that the first one flipped. -/
theorem drawn_afterDrw {x y : Reg} (hx : x ≠ 15) (hy : y ≠ 15) (n : Nat) (s : State) :
    (drawn x y n (afterDrw x y n s)).1 = s.screen := by
  refine Screen.ext_cell fun px py hpx hpy => ?_
  have htwice := drawn_cell x y n (afterDrw x y n s) ⟨px, hpx⟩ ⟨py, hpy⟩
  have honce : (afterDrw x y n s).screen[py][px] = (s.screen[py][px] ^^ covers x y n s px py) :=
    drawn_cell x y n s ⟨px, hpx⟩ ⟨py, hpy⟩
  rw [covers_afterDrw hx hy] at htwice
  rw [Screen.cell_of_lt _ hpx hpy, Screen.cell_of_lt _ hpx hpy]
  refine htwice.trans ?_
  show ((afterDrw x y n s).screen[py][px] ^^ covers x y n s px py) = s.screen[py][px]
  rw [honce, Bool.xor_assoc, Bool.xor_self, Bool.xor_false]

/-- Settles O45: the screen is that of the start, and each draw wrote VF beside it. -/
theorem drwTwiceRestoresTheScreen : Obligations.DrwTwiceRestoresTheScreen := by
  intro x y n s hx hy hrange
  have hsecond : exec (.drw x y n) (afterDrw x y n s) = .next ({ afterDrw x y n s with screen := s.screen }.setV 15
      (flagByte (drawn x y n (afterDrw x y n s)).2)) := by
    rw [exec_drw_of_inRange (s := afterDrw x y n s) x y hrange, drawn_afterDrw hx hy]
  refine ⟨_, _, exec_drw_of_inRange x y hrange, hsecond, rfl, fun r hr => ?_, rfl⟩
  rw [getV_setV_of_ne _ _ hr.symm]
  exact getV_setV_of_ne _ _ hr.symm

/-- Settles O46: the word is format XYN of group 0xD, and past 0xFFF the check of the range fails. -/
theorem drwFaultsPastMemory : Obligations.DrwFaultsPastMemory := by
  intro x y n s
  refine ⟨fun hn => ?_, fun hn hi => exec_faultsWith (if_pos ⟨hn, hi⟩)⟩
  have hword : BitVec.ofNat 16 (0xD000 + x.val * 256 + y.val * 16 + n) = encode (.drw x y n) := by
    have h := ofNat_eq_formatXYN 0xD#4 x y (BitVec.ofNat 4 n)
    rwa [toNat_height hn] at h
  rw [hword]
  exact decodesTo_encode_drw (decide_eq_true hn)

end Sys2Proof.Machine

/-! ## Idle loops (10_state.md R35), reset and the host (70_reset_and_hazards.md, 10_state.md R32) -/

namespace Sys2Proof.Machine

/-! ### A jump to itself and a key wait with no key -/

/-- The next cycle is a jump to itself, or a key wait with no key pressed. -/
def idles (s : State) : Prop :=
  (∃ nnn : Addr12, fetches s (.jp nnn) ∧ nnn.toNat = s.pc.toNat) ∨
    ∃ x, fetches s (.ldVxK x) ∧ ∀ j : Fin 16, s.key[j] = false

/-- An idle cycle closes the load window, ticks, and comes back to the same PC. -/
theorem step_of_idles {s : State} (h : idles s) : step s = .next (tick (closeLoad s)) := by
  obtain ⟨nnn, hf, hself⟩ | ⟨x, hf, hnone⟩ := h
  · have hpc : zextAddr nnn = s.pc := BitVec.eq_of_toNat_eq ((toNat_zextAddr nnn).trans hself)
    rw [step_of_no_executeFault hf rfl (exec_jp nnn (advance s)), hpc]
    rfl
  · have hpc : s.pc + 2 - 2 = s.pc := BitVec.add_sub_cancel s.pc 2
    rw [step_of_no_executeFault hf rfl (exec_ldVxK_of_no_key (s := advance s) x hnone), State.pcMinus2, advance_pc, hpc]
    rfl

/-- What an idle cycle writes plays no part in idling. -/
theorem idles_tick_closeLoad {s : State} (h : idles s) : idles (tick (closeLoad s)) := h

theorem status_of_idles {s : State} (h : idles s) : s.status = .run := by
  obtain ⟨_, hf, -⟩ | ⟨_, hf, -⟩ := h
  · exact hf.1
  · exact hf.1

theorem safeFor_of_idles {s : State} (n : Nat) (h : idles s) : safeFor n s := by
  induction n generalizing s with
  | zero => exact status_of_idles h
  | succ n ih => exact ⟨status_of_idles h, _, step_of_idles h, ih (idles_tick_closeLoad h)⟩

/-- Each of the `n` idle cycles takes one off each timer. -/
theorem run_of_idles {s : State} (n : Nat) (h : idles s) : ∃ t : State, Sys2Proof.core.run n s = .next t ∧
    t = { s with dt := t.dt, st := t.st, loadOpen := t.loadOpen } ∧
    t.dt.toNat = s.dt.toNat - n ∧ t.st.toNat = s.st.toNat - n := by
  induction n generalizing s with
  | zero => exact ⟨s, rfl, rfl, rfl, rfl⟩
  | succ n ih =>
    obtain ⟨t, hrun, hframe, hdt, hst⟩ := ih (idles_tick_closeLoad h)
    refine ⟨t, (core_run_succ n (step_of_idles h)).trans hrun, hframe, ?_, ?_⟩
    · rw [hdt, tick_dt, toNat_tickTimer, closeLoad_dt]
      omega
    · rw [hst, tick_st, toNat_tickTimer, closeLoad_st]
      omega

/-- Settles O23, by induction on the number of cycles: an idle cycle leads to an idle state. -/
theorem idleLoopsChangeOnlyTheTimers : Obligations.IdleLoopsChangeOnlyTheTimers :=
  fun _ n h => ⟨safeFor_of_idles n h, run_of_idles n h⟩

/-! ### The host operations -/

/-- Outside the font every byte at reset is 0x00 (R400). -/
theorem initByte_outside_font {a : Nat} (h : ¬ (0x050 ≤ a ∧ a ≤ 0x09F)) : initByte a = 0x00 := by
  rw [initByte_eq, if_neg (by omega)]

/-- Settles O54: `reset` answers the reset state of the configuration, field by field. -/
theorem resetInstallsTheTable : Obligations.ResetInstallsTheTable := by
  intro s
  refine ⟨State.resetWith s.params, rfl, fun r => ?_, rfl, rfl, rfl, fun k => ?_, rfl, rfl, rfl, rfl, rfl, rfl, rfl, rfl,
    fun k => ?_, fun px py => ?_, fun a ha => initByte_outside_font ha, rfl, rfl, rfl, rfl, rfl⟩
  · simp [State.getV, State.resetWith, State.reset]
  · simp [State.resetWith, State.reset]
  · simp [State.resetWith, State.reset]
  · simp [State.resetWith, State.reset]

/-- Settles O55: the three branches of `load` exclude each other, and the one that answers writes the block at 0x200. -/
theorem loadPlacesTheProgram : Obligations.LoadPlacesTheProgram := by
  intro bytes s
  obtain ⟨hopen, h⟩ | ⟨hopen, hlen, h⟩ | ⟨hopen, hlen, h⟩ := hostLoad_cases bytes s
  · exact ⟨fun h' => by simp [hopen] at h', fun _ => h, fun h' => by simp [hopen] at h'⟩
  · exact ⟨fun _ hlen' => absurd hlen (Nat.not_lt.mpr hlen'), fun h' => by simp [hopen] at h', fun _ _ => h⟩
  · exact ⟨fun _ _ => ⟨_, h, fun a => Memory.read_writeBytes _ _ _ _, rfl⟩, fun h' => by simp [hopen] at h',
      fun _ hlen' => absurd hlen' (Nat.not_lt.mpr hlen)⟩

/-- In a list made of runs of one length `w`, entry `y * w + x` is entry `x` of run `y`. -/
theorem getElem?_flatMap_of_length {α β : Type} {f : α → List β} {w : Nat} (hw : ∀ a, (f a).length = w) {x : Nat} (hx : x < w)
    (l : List α) (y : Nat) : (l.flatMap f)[y * w + x]? = l[y]?.bind fun a => (f a)[x]? := by
  induction l generalizing y with
  | nil => simp
  | cons a l ih =>
    rw [List.flatMap_cons]
    cases y with
    | zero => rw [Nat.zero_mul, Nat.zero_add, List.getElem?_append_left (by rw [hw]; exact hx)]; rfl
    | succ y =>
      rw [List.getElem?_append_right (by rw [hw, Nat.succ_mul]; omega), hw, Nat.succ_mul,
        show y * w + w + x - w = y * w + x by omega, ih, List.getElem?_cons_succ]

/-- Settles O57: the list is 32 runs of 64 entries, one per cell of the row. -/
theorem readScreenIsRowMajor : Obligations.ReadScreenIsRowMajor := by
  intro s
  refine ⟨?_, fun px py => ?_⟩
  · simp [readScreen]
  · rw [readScreen, List.getD_eq_getElem?_getD, getElem?_flatMap_of_length (w := 64) (by simp) px.isLt]
    simp

/-- No host operation writes the configuration; `reset` installs the state of the one it finds (log 28). -/
theorem hostStep_params {op : HostOp} {s t : State} (ht : hostStep op s = .next t) : t.params = s.params := by
  cases op with
  | reset =>
    cases ht
    rfl
  | load bytes =>
    obtain ⟨-, h⟩ | ⟨-, -, h⟩ | ⟨-, -, h⟩ := hostLoad_cases bytes s
    · cases h.symm.trans ht
    · cases h.symm.trans ht
    · cases h.symm.trans ht
      rfl
  | setKeypad k =>
    cases ht
    rfl
  | cycle b =>
    obtain ⟨u, hu⟩ := step_answers_next { s with rndIn := [b] }
    cases (hostCycle_of_step hu).symm.trans ht
    exact (step_params hu :)

/-- Settles O58: neither a step nor a host operation writes the configuration. -/
theorem parametersNeverChange : Obligations.ParametersNeverChange := ⟨fun _ _ => step_params, fun _ _ _ => hostStep_params⟩

/-- Settles O60: the operation is one write of the keypad. -/
theorem setKeypadReplacesTheSnapshot : Obligations.SetKeypadReplacesTheSnapshot :=
  fun k s => ⟨hostSetKeypad k s, rfl, rfl, rfl⟩

end Sys2Proof.Machine
